-- ==== Sys2Proof/Word.lean ====
section
/-! DEFINITION. The block's word types (spec/00_scope.md R5, R6): `XLEN` = `ALEN` = 64, `BYTE_BITS` = 8.

All three are plain abbreviations of `BitVec`, bit 0 the least significant (R6). A memory address is a 64-bit unsigned
value; the key of a memory cell is the natural number it denotes, reached with `toNat`. -/

namespace Sys2Proof

/-- A register value, the program counter or a decoded memory value: `XLEN` = 64 bits (R5, R12, R18). -/
abbrev Word := BitVec 64

/-- A memory address: `ALEN` = 64 bits, unsigned (R5, R19). -/
abbrev Addr := BitVec 64

/-- A memory cell's value, or one character code: `BYTE_BITS` = 8 bits, unsigned (R5, R19, R72). -/
abbrev Byte := BitVec 8

end Sys2Proof
end

