-- ==== Sys2Proof/Config.lean ====
section
/-! DEFINITION. What is fixed for one block and never changes while it runs: the parameters of spec/00_scope.md R5 and the
constant special-register name table (spec/10_state.md R14 to R16).

`RSP_FRAMING` has no constant here: a response carries its abstract sequence (R5, R70). `MEM_CAPACITY` is unbounded (R5), so
memory has no size. -/

namespace Sys2Proof

/-- The 32 special-register mnemonics, in the source's order (R14; the source's count "30" is wrong,
spec/90_conflicts.md C1). No other mnemonic exists. -/
inductive Mnemonic where
  | rA | rB | rC | rD | rE | rF | rG | rH | rI | rJ | rK | rL | rM | rN | rO | rP | rQ | rR | rS | rT | rU | rV | rW | rX
  | rY | rZ | rBB | rTT | rWW | rXX | rYY | rZZ
  deriving DecidableEq, Repr

namespace Config

/-- `VW`: the width of the value input. The spec leaves it open, at least 64 with default 128 (R5, D2); this is the default.
DESIGN CHOICE (log entry 2), safe: a value is a natural number everywhere in the model, and only `Instr.wellFormed` and the
requester's encoding of a negative integer (R73) name a width, each with this constant as a default argument. -/
def VW : Nat := 128

/-- `IDX_BITS`: the width of the index field of the command word (R5, R62). -/
def IDX_BITS : Nat := 16

/-- `NAME_MAX`: the most name bytes a GETNAME command carries (R5, R72). -/
def NAME_MAX : Nat := 8

/-- The default slot of each mnemonic, the table of R15 (the spec marks it as general knowledge, K1). It is NOT what the
machine uses: see `slotShuffle`. -/
def defaultSlot : Mnemonic → Fin 32
  | .rB => 0 | .rD => 1 | .rE => 2 | .rH => 3 | .rJ => 4 | .rM => 5 | .rR => 6 | .rBB => 7
  | .rC => 8 | .rN => 9 | .rO => 10 | .rS => 11 | .rI => 12 | .rT => 13 | .rTT => 14 | .rK => 15
  | .rQ => 16 | .rU => 17 | .rV => 18 | .rG => 19 | .rL => 20 | .rA => 21 | .rF => 22 | .rP => 23
  | .rW => 24 | .rX => 25 | .rY => 26 | .rZ => 27 | .rWW => 28 | .rXX => 29 | .rYY => 30 | .rZZ => 31

/-- How the block's `SLOT_OF` differs from the default table: any bijection of the 32 slots. `SLOT_OF` is an open parameter
that the source fixes and does not list (R5, R15; D10), required to be a bijection (D11), so it has no body: a claim holds
for every `SLOT_OF`, and the default numbering is the case `slotShuffle = Equiv.refl _`. Log entry 1, safe. -/
opaque slotShuffle : Equiv.Perm (Fin 32)

end Config

end Sys2Proof
end

