-- ==== Sys2Proof/Syntax.lean ====
section
/-! DEFINITION. The sixteen commands (spec/30_encoding.md R60), the command port's operand fields (R61) and what can arrive at
the port (spec/70_reset_and_hazards.md R157). The word "instruction" is read as "command" (spec/00_scope.md R1). -/

namespace Sys2Proof

/-- The five access widths, a closed enumeration (spec/20_memory.md R30). -/
inductive Width where
  | byte | wyde | tetra | octa | highTetra
  deriving DecidableEq, Repr

/-- The sixteen commands, in the order of their operation codes (R60, R63), with the operands R67 gives each.

An index, a name length and a digit count are natural numbers used as they stand (R66); a value operand `v` is the unsigned
integer the `VW`-bit input denotes (R73). The bounds of the port's fields are `Instr.wellFormed`. -/
inductive Instr where
  /-- READ: address, access width, signed option (R80). -/
  | read (w : Width) (sg : Bool) (addr : Addr)
  /-- WRITE: address, access width, value (R81). -/
  | write (w : Width) (addr : Addr) (v : Nat)
  /-- READB: address (R82). -/
  | readb (addr : Addr)
  /-- WRITEB: address, value whose low byte is stored (R83). -/
  | writeb (addr : Addr) (v : Nat)
  /-- USED: list the used addresses (R84). -/
  | used
  /-- CLEAR: destroy every store entry (R85). -/
  | clear
  /-- GETREG: general register index (R100). -/
  | getreg (idx : Nat)
  /-- SETREG: general register index, value (R101). -/
  | setreg (idx : Nat) (v : Nat)
  /-- GETSPEC: special slot index (R102). -/
  | getspec (idx : Nat)
  /-- SETSPEC: special slot index, value (R103). -/
  | setspec (idx : Nat) (v : Nat)
  /-- GETNAME: name length, and the name's bytes packed from bit 63 down (R105, R72). -/
  | getname (len : Nat) (chars : Addr)
  /-- RESET: zero the registers and the program counter (R106). -/
  | reset
  /-- GETPC: read the program counter (R107). -/
  | getpc
  /-- SETPC: set the program counter (R108). -/
  | setpc (v : Nat)
  /-- FMTHEX: least number of digits, value (R120). -/
  | fmthex (digits : Nat) (v : Nat)
  /-- FMTSGN: value (R121). -/
  | fmtsgn (v : Nat)
  deriving DecidableEq, Repr

/-- One command as it stands at the port: the three operand fields of R61. `wdata` is the unsigned integer that the
`VW`-bit value input denotes, for any `VW` (R5, R73). -/
structure Request where
  cw    : BitVec 32
  addr  : Addr
  wdata : Nat
  deriving DecidableEq, Repr

/-- What the requester can send: a command, or the hard reset input `rst` between two commands (R61, R150, R157). -/
inductive PortEvent where
  | command (r : Request)
  | hardReset
  deriving DecidableEq, Repr

/-- A number given to the functional form where a rule asks for an integer in a range: an integer, or anything that is none
(R66; spec/60_exceptions.md R130; D25, U11). -/
inductive NumberArg where
  | integer (i : Int)
  | notInteger
  deriving DecidableEq, Repr

/-- The width argument of the functional form's `read` and `write`: a byte count, the high-tetra sentinel, or anything else
(spec/20_memory.md R30; N3, U1). -/
inductive WidthArg where
  | bytes (n : Nat)
  | highTetra
  | other
  deriving DecidableEq, Repr

/-- The reserved encodings, which are the only ones the decoder rejects: READ and WRITE with `wsel` 5, 6 or 7 (R69). -/
inductive Rejection where
  /-- READ with a reserved width selector. -/
  | readWidth (wsel : BitVec 3)
  /-- WRITE with a reserved width selector. -/
  | writeWidth (wsel : BitVec 3)
  deriving DecidableEq, Repr

end Sys2Proof
end

