-- ==== Sys2Proof/Machine/State.lean ====
section
/-! DEFINITION. The machine's state (spec/10_state.md R10), the responses of the command port (spec/30_encoding.md R70), the
reasons a step can stop, and the power-on state (R25, spec/70_reset_and_hazards.md R150).

The five architectural components are `mem`, `used`, `x`, `sr` and `pc`. The other two fields are the MODEL'S OWN and stand
for the port (log entry 4): `port` is what the requester still has to send, `rsp` what the block last answered. The name table
is configuration, not state (R16). -/

namespace Sys2Proof.Machine

/-- The byte memory `MEM` (R19): the non-zero bytes by address, addresses strictly rising. -/
abbrev Memory := List Host.Cell

/-- What an address without a listed byte reads as: "any address absent from the store is defined to read as 0" (R19). -/
abbrev Memory.unlisted : Byte := 0

/-- The canonical form of memory: addresses below 2^64 and strictly rising, and no listed byte equal to what an unlisted
address reads as, so that equal memories are equal lists. -/
abbrev Memory.wf (m : Memory) : Prop :=
  m.Pairwise (fun c d => c.1 < d.1) ∧ ∀ c ∈ m, c.1 < 2 ^ 64 ∧ c.2 ≠ Memory.unlisted

/-- The two error kinds (spec/60_exceptions.md R130). They are responses, not stops. -/
inductive ErrorKind where
  | outOfRangeIndex
  | unknownRegister
  deriving DecidableEq, Repr

/-- The six kinds of response (R70). `addrs` and `str` carry their abstract sequence (`RSP_FRAMING` is open, R5). -/
inductive Response where
  | ack
  | val (v : Word)
  | byte (b : Byte)
  | addrs (as : List Addr)
  | str (chars : List Byte)
  | err (e : ErrorKind)
  deriving DecidableEq, Repr

/-- The whole state of one block and of its command port. -/
structure State where
  /-- `MEM`, the byte memory over the whole 64-bit address range (R19). -/
  mem  : Memory
  /-- `USED`, the addresses that hold a store entry, strictly rising (R20). Not computable from `mem`: an address written with
  0 is in it. -/
  used : List Nat
  /-- `x[0]` to `x[255]`, the general registers (R11). -/
  x    : Vector Word 256
  /-- `s[0]` to `s[31]`, the special register slots (R13). -/
  sr   : Vector Word 32
  /-- `pc`, the program counter: a storage field that nothing advances (R18). -/
  pc   : Word
  /-- MODEL'S OWN: what the requester still sends, the next event first (R61, R156, R157; log entry 4). -/
  port : List PortEvent
  /-- MODEL'S OWN: the response lines of the port, `none` before the first response and after a hard reset (R61, R70, R157; log
  entry 4). -/
  rsp  : Option Response
  deriving DecidableEq, Repr

/-- The block has no fault: "Nothing in the block is `fault`, `stuck` or `any value`" (spec/93_implementation_defined.md Part 1).
An error is a response and the machine goes on (R134, R136), so no constructor is left to raise. -/
inductive Fault where
  deriving DecidableEq, Repr

/-- Where the model gives no meaning, by name. Each refusal is safe: nothing can be proved about what happens there. -/
inductive Refusal where
  /-- An instruction without a meaning yet. Raised by no arm of `exec` (every command has its meaning); safe. -/
  | notModelled (mnemonic : String)
  /-- Raised by `step` when the command at the port is a reserved encoding, READ or WRITE with `wsel` 5, 6 or 7 (R69, R140;
  U1); safe. -/
  | reservedEncoding (r : Rejection)
  /-- Raised by the functional form alone, on a width outside the enumeration (R30, R140; U1); safe. -/
  | widthOutsideEnumeration (w : WidthArg)
  /-- Raised by the functional form alone, on `highTetra:true` with a width of BYTE, WYDE or OCTA (R41, R140; U5); safe. -/
  | highTetraWithWidth (w : Width)
  /-- Raised by the functional form alone, on a digit count of FMTHEX that is not a natural number (U11); safe. -/
  | digitsNotNatural (digits : NumberArg)
  deriving DecidableEq, Repr

/-- What one command, or one step, ends in. -/
abbrev Result := Host.Outcome State Fault Refusal

/-- The power-on state (R25, R150): memory empty (the source's), registers, slots and program counter 0 (the spec's decision
D3, log entry 3), nothing at the port. -/
def State.reset : State where
  mem  := []
  used := []
  x    := Vector.replicate 256 0
  sr   := Vector.replicate 32 0
  pc   := 0
  port := []
  rsp  := none

end Sys2Proof.Machine
end

