-- ==== Sys2Proof/Machine/Operands.lean ====
section
/-! DEFINITION. The operand forms of the commands: the width and access translator (spec/20_memory.md R30 to R41), the slices
of the value operand (spec/30_encoding.md R67), the checked register indices (spec/41_register_ops.md R100 to R103), and the
name operand with its resolution (R72, R104). All of them are functions of their operands alone (R40). -/

namespace Sys2Proof.Machine

/-! ### The slices of the value operand -/

/-- `wdata[63:0]` (R12, R67). -/
def low64 (v : Nat) : Word := BitVec.ofNat 64 v

/-- `wdata[7:0]` (R67, R83). -/
def lowByte (v : Nat) : Byte := BitVec.ofNat 8 v

/-! ### The width and access translator -/

/-- The effective width in bytes (R30). -/
def ew : Width → Nat
  | .byte => 1
  | .wyde => 2
  | .tetra => 4
  | .octa => 8
  | .highTetra => 4

/-- The address with its low `log2(ew(W))` bits cleared, `a & ~(ew(W) - 1)` (R31). -/
def alignDown (a : Addr) (w : Width) : Addr := a &&& ~~~(BitVec.ofNat 64 (ew w - 1))

/-- The bytes combined most significant first, `bytes[0] ++ bytes[1] ++ …` as an unsigned integer (R33, R34). -/
def combine (bytes : List Byte) : Nat := bytes.foldl (fun u b => u * 256 + b.toNat) 0

/-- The low `8n` bits of `t` as `n` bytes, most significant first: `bytes[k] = t[8(n-1-k)+7 : 8(n-1-k)]` (R33, R38). -/
def split (n t : Nat) : List Byte := (List.range n).map fun k => BitVec.ofNat 8 (t >>> (8 * (n - 1 - k)))

/-- `decode` of the translator, the read path: the `ew(W)` bytes from the aligned address up as a 64-bit value. High tetra
goes to bits 63:32 and ignores `signed` (R35); otherwise the value is sign-extended (R36) or zero-extended (R37). -/
def bytesToValue (w : Width) (sg : Bool) (bytes : List Byte) : Word :=
  if w = .highTetra then BitVec.ofNat 64 (combine bytes) <<< 32
  else if sg then (BitVec.ofNat (8 * ew w) (combine bytes)).signExtend 64
  else BitVec.ofNat 64 (combine bytes)

/-- `encode` of the translator, the write path: the `ew(W)` bytes to store from the aligned address up. High tetra takes bits
63:32 of the value (R39), every other width the low `8 * ew(W)` bits (R38); the other bits are dropped. -/
def valueToBytes (w : Width) (v : Nat) : List Byte :=
  split (ew w) (if w = .highTetra then v >>> 32 else v)

/-! ### Register indices -/

/-- A general register index, in range when `idx <= 255` (R66, R100, R101). -/
def regIndex (idx : Nat) : Except ErrorKind (Fin 256) :=
  if h : idx < 256 then .ok ⟨idx, h⟩ else .error .outOfRangeIndex

/-- A special slot index, in range when `idx <= 31` whether or not a mnemonic maps to it (R66, R17, R102, R103). -/
def slotIndex (idx : Nat) : Except ErrorKind (Fin 32) :=
  if h : idx < 32 then .ok ⟨idx, h⟩ else .error .outOfRangeIndex

/-! ### The name table (constant, R16) -/

/-- Every mnemonic, in the source's order (R14). -/
def Mnemonic.all : List Mnemonic :=
  [ .rA, .rB, .rC, .rD, .rE, .rF, .rG, .rH, .rI, .rJ, .rK, .rL, .rM, .rN, .rO, .rP ] ++
  [ .rQ, .rR, .rS, .rT, .rU, .rV, .rW, .rX, .rY, .rZ, .rBB, .rTT, .rWW, .rXX, .rYY, .rZZ ]

/-- The letters of a mnemonic after its `r`, as ASCII codes (R14, R72). -/
def mnemonicLetters : Mnemonic → List Byte
  | .rA => [0x41] | .rB => [0x42] | .rC => [0x43] | .rD => [0x44] | .rE => [0x45] | .rF => [0x46] | .rG => [0x47]
  | .rH => [0x48] | .rI => [0x49] | .rJ => [0x4A] | .rK => [0x4B] | .rL => [0x4C] | .rM => [0x4D] | .rN => [0x4E]
  | .rO => [0x4F] | .rP => [0x50] | .rQ => [0x51] | .rR => [0x52] | .rS => [0x53] | .rT => [0x54] | .rU => [0x55]
  | .rV => [0x56] | .rW => [0x57] | .rX => [0x58] | .rY => [0x59] | .rZ => [0x5A]
  | .rBB => [0x42, 0x42] | .rTT => [0x54, 0x54] | .rWW => [0x57, 0x57]
  | .rXX => [0x58, 0x58] | .rYY => [0x59, 0x59] | .rZZ => [0x5A, 0x5A]

/-- The mnemonic's spelling: `r` and its letters, case-sensitive (R14, R104). -/
def mnemonicName (m : Mnemonic) : List Byte := 0x72 :: mnemonicLetters m

/-- `SLOT_OF`: the slot a mnemonic names (R15). -/
def slotOf (m : Mnemonic) : Fin 32 := Config.slotShuffle (Config.defaultSlot m)

/-- The constant table the requester may query at any time (R16, R157). -/
def nameTable : List (List Byte × Fin 32) := Mnemonic.all.map fun m => (mnemonicName m, slotOf m)

/-! ### Names -/

/-- The name a GETNAME of length `len <= 8` carries: byte k is `addr[63-8k : 56-8k]`, the rest of `addr` unused (R72). -/
def nameBytes (len : Nat) (chars : Addr) : List Byte :=
  (List.range len).map fun k => chars.extractLsb' (56 - 8 * k) 8

/-- What a name denotes (R104). -/
inductive NameRef where
  | general (i : Fin 256)
  | special (j : Fin 32)
  | unknown
  deriving DecidableEq, Repr

/-- The decimal digit a character code stands for (R72). -/
def digitValue (c : Byte) : Option Nat := if 0x30 ≤ c.toNat ∧ c.toNat ≤ 0x39 then some (c.toNat - 0x30) else none

/-- The number a string of decimal digits denotes, `none` when a character is no digit. -/
def digitsValue (cs : List Byte) : Option Nat :=
  cs.foldl (fun acc c => do return (← acc) * 10 + (← digitValue c)) (some 0)

/-- The index after the `$` of a designator: one to three digits, no leading zero unless the numeral is `0`, at most 255
(R104; the strictness is the spec's decision D12, log entry 5). -/
def designatorIndex (cs : List Byte) : Option (Fin 256) :=
  if 1 ≤ cs.length ∧ cs.length ≤ 3 ∧ (cs.length = 1 ∨ cs.head? ≠ some 0x30) then
    match digitsValue cs with
    | some v => if h : v < 256 then some ⟨v, h⟩ else none
    | none => none
  else none

/-- `resolveName` (R104): a general-register designator, a mnemonic byte for byte, or UNKNOWN. -/
def resolveName (n : List Byte) : NameRef :=
  match n with
  | 0x24#8 :: cs =>
    match designatorIndex cs with
    | some i => .general i
    | none => .unknown
  | _ =>
    match nameTable.find? (fun row => row.1 == n) with
    | some row => .special row.2
    | none => .unknown

end Sys2Proof.Machine
end

