-- ==== Sys2Proof/Machine/Ops.lean ====
section
/-! DEFINITION. The named operations over memory, registers and the port that the meanings are written with (spec/00_scope.md
R7): `mem[a]`, `mem[a] <- b`, `MemRead`, `MemWrite`, register reads and writes, `respond`, `raise`, and the hard reset. -/

namespace Sys2Proof.Machine

/-! ### Memory -/

/-- `mem[a]`: the listed byte, or what an unlisted address reads as (R7, R19). -/
def Memory.read : Memory → Nat → Byte
  | [], _ => Memory.unlisted
  | c :: m, a => if c.1 = a then c.2 else Memory.read m a

/-- Memory with the byte `b` listed at `a`, in its place. -/
def Memory.put (a : Nat) (b : Byte) : Memory → Memory
  | [] => [(a, b)]
  | c :: m => if a < c.1 then (a, b) :: c :: m else if a = c.1 then (a, b) :: m else c :: Memory.put a b m

/-- Memory with the byte at `a` made `b`, in canonical form: writing what an unlisted address reads as lists nothing. -/
def Memory.write (m : Memory) (a : Nat) (b : Byte) : Memory :=
  if b = Memory.unlisted then m.filter (fun c => c.1 ≠ a) else Memory.put a b m

/-- The set of used addresses with `a` added, ascending, no address twice (R20). -/
def insertAddr (a : Nat) : List Nat → List Nat
  | [] => [a]
  | k :: l => if a < k then a :: k :: l else if a = k then k :: l else k :: insertAddr a l

/-- `mem[a] <- b`: the byte changes and `a` joins `USED`, also when `b` is 0 (R7, R20). -/
def State.storeByte (s : State) (a : Nat) (b : Byte) : State :=
  { s with mem := s.mem.write a b, used := insertAddr a s.used }

/-- The `n` bytes from `a` up, in ascending address order (R7, R49). No address wraps (R43). -/
def State.loadBytes (s : State) (a n : Nat) : List Byte := (List.range n).map fun k => s.mem.read (a + k)

/-- `MemWrite`: the bytes stored from `a` up, in ascending address order (R7, R38, R49). -/
def State.storeBytes (s : State) (a : Nat) : List Byte → State
  | [] => s
  | b :: bs => (s.storeByte a b).storeBytes (a + 1) bs

/-- Every store entry destroyed, `USED` empty (R85). -/
def State.clearStore (s : State) : State := { s with mem := [], used := [] }

/-! ### Registers -/

/-- `x[i]` (R7, R11). -/
def State.readReg (s : State) (i : Fin 256) : Word := s.x[i]

/-- `x[i] <- v` (R7, R11). -/
def State.writeReg (s : State) (i : Fin 256) (v : Word) : State := { s with x := s.x.set i v }

/-- `s[j]`: no slot's read has a side effect (R7, R13). -/
def State.readSlot (s : State) (j : Fin 32) : Word := s.sr[j]

/-- `s[j] <- v`: every slot is plain storage (R7, R13). -/
def State.writeSlot (s : State) (j : Fin 32) (v : Word) : State := { s with sr := s.sr.set j v }

/-- `pc <- v` (R7, R18). -/
def State.writePc (s : State) (v : Word) : State := { s with pc := v }

/-- Every general register, every slot and the program counter 0; memory and `USED` as they were (R106). -/
def State.zeroRegisters (s : State) : State :=
  { s with x := Vector.replicate 256 0, sr := Vector.replicate 32 0, pc := 0 }

/-! ### Ending a command -/

/-- `respond K(p)`: the command ends with its one response (R7, R70). -/
def respond (r : Response) (s : State) : Result := .next { s with rsp := some r }

/-- `raise E`: the command ends with `ERR(E)` and leaves every piece of state as it was. The block has no trap entry and so
no return from one: nothing is saved, no handler runs, the program counter stays (R7, R134, R135, R136). -/
def raise (e : ErrorKind) (s : State) : Result := respond (.err e) s

/-! ### Hard reset -/

/-- The `rst` input: the power-on state, whatever the block held; the requester gets nothing back, and what it still has to send
stands (R150, R157). -/
def State.hardReset (s : State) : State := { State.reset with port := s.port }

end Sys2Proof.Machine
end

