-- ==== Sys2Proof/Machine/FormatCommands.lean ====
section
/-! DEFINITION. The formatting helpers FMTHEX and FMTSGN (spec/42_formatting.md R120 to R122). Characters are ASCII codes. They
touch no state but the response. -/

namespace Sys2Proof.Machine

/-- The character of a digit below 16: `0`-`9`, then upper-case `A`-`F` (R120). -/
def digitChar (d : Nat) : Byte := if d < 10 then BitVec.ofNat 8 (0x30 + d) else BitVec.ofNat 8 (0x41 + (d - 10))

/-- The numeral of `n` in a base from 2 to 16, no leading zero, "0" for 0; `fuel` bounds the number of digits. -/
def numeral (base : Nat) : (fuel : Nat) → Nat → List Byte
  | 0, _ => []
  | fuel + 1, n => if n < base then [digitChar n] else numeral base fuel (n / base) ++ [digitChar (n % base)]

/-- The hexadecimal numeral of a 64-bit value: at most 16 digits (R120). -/
def hexNumeral (v : Word) : List Byte := numeral 16 16 v.toNat

/-- The decimal numeral of a number below 10^20, so of every number up to 2^64 (R121). -/
def decNumeral (n : Nat) : List Byte := numeral 10 20 n

/-- The numeral left-padded with the character `0` to `digits` characters, never cut (R120). -/
def padTo (digits : Nat) (h : List Byte) : List Byte := List.replicate (digits - h.length) 0x30 ++ h

/-- The decimal numeral of the two's-complement reading of a 64-bit value (R121). -/
def signedNumeral (v : Word) : List Byte :=
  if v.msb then 0x2D :: decNumeral (2 ^ 64 - v.toNat) else decNumeral v.toNat

/-- FMTHEX (R120). -/
def execFmthex (digits : Nat) (v : Nat) (s : State) : Result :=
  respond (.str (padTo digits (hexNumeral (low64 v)))) s

/-- FMTSGN (R121). -/
def execFmtsgn (v : Nat) (s : State) : Result :=
  respond (.str (signedNumeral (low64 v))) s

end Sys2Proof.Machine
end

