-- ==== Sys2Proof/Machine/MemoryCommands.lean ====
section
/-! DEFINITION. The memory commands READ, WRITE, READB, WRITEB, USED, CLEAR (spec/40_memory_ops.md R80 to R85). None of them
can fail (spec/60_exceptions.md R133). -/

namespace Sys2Proof.Machine

/-- READ (R80): `ew(W)` bytes from the aligned address, decoded to a 64-bit value. -/
def execRead (w : Width) (sg : Bool) (addr : Addr) (s : State) : Result :=
  respond (.val (bytesToValue w sg (s.loadBytes (alignDown addr w).toNat (ew w)))) s

/-- WRITE (R81): the value encoded to `ew(W)` bytes, stored from the aligned address up. -/
def execWrite (w : Width) (addr : Addr) (v : Nat) (s : State) : Result :=
  respond .ack (s.storeBytes (alignDown addr w).toNat (valueToBytes w v))

/-- READB (R82): the byte at the address as it is. -/
def execReadb (addr : Addr) (s : State) : Result :=
  respond (.byte (s.mem.read addr.toNat)) s

/-- WRITEB (R83): the value's low byte stored at the address as it is. -/
def execWriteb (addr : Addr) (v : Nat) (s : State) : Result :=
  respond .ack (s.storeByte addr.toNat (lowByte v))

/-- USED (R84): the used addresses in ascending order. -/
def execUsed (s : State) : Result :=
  respond (.addrs (s.used.map (BitVec.ofNat 64))) s

/-- CLEAR (R85): every store entry destroyed; registers and program counter untouched. -/
def execClear (s : State) : Result :=
  respond .ack s.clearStore

end Sys2Proof.Machine
end

