-- ==== Sys2Proof/Machine/RegisterCommands.lean ====
section
/-! DEFINITION. The register commands GETREG, SETREG, GETSPEC, SETSPEC, GETNAME, RESET, GETPC, SETPC (spec/41_register_ops.md
R100 to R108). A command that can fail checks its operand before it writes anything (spec/60_exceptions.md R134). -/

namespace Sys2Proof.Machine

/-- GETREG (R100). -/
def execGetreg (idx : Nat) (s : State) : Result :=
  match regIndex idx with
  | .error e => raise e s
  | .ok i => respond (.val (s.readReg i)) s

/-- SETREG (R101): the value masked to its low 64 bits. -/
def execSetreg (idx : Nat) (v : Nat) (s : State) : Result :=
  match regIndex idx with
  | .error e => raise e s
  | .ok i => respond .ack (s.writeReg i (low64 v))

/-- GETSPEC (R102). -/
def execGetspec (idx : Nat) (s : State) : Result :=
  match slotIndex idx with
  | .error e => raise e s
  | .ok j => respond (.val (s.readSlot j)) s

/-- SETSPEC (R103): the same masking as SETREG. -/
def execSetspec (idx : Nat) (v : Nat) (s : State) : Result :=
  match slotIndex idx with
  | .error e => raise e s
  | .ok j => respond .ack (s.writeSlot j (low64 v))

/-- GETNAME (R105): a name longer than the port carries is unknown (R72). -/
def execGetname (len : Nat) (chars : Addr) (s : State) : Result :=
  if Config.NAME_MAX < len then raise .unknownRegister s
  else
    match resolveName (nameBytes len chars) with
    | .general i => respond (.val (s.readReg i)) s
    | .special j => respond (.val (s.readSlot j)) s
    | .unknown => raise .unknownRegister s

/-- RESET (R106): memory and `USED` untouched. -/
def execReset (s : State) : Result :=
  respond .ack s.zeroRegisters

/-- GETPC (R107). -/
def execGetpc (s : State) : Result :=
  respond (.val s.pc) s

/-- SETPC (R108): the value reduced to 64 bits, no alignment; not a control transfer. -/
def execSetpc (v : Nat) (s : State) : Result :=
  respond .ack (s.writePc (low64 v))

end Sys2Proof.Machine
end

