-- ==== Sys2Proof/Machine/Dispatch.lean ====
section
/-! DEFINITION. One arm per command of spec/30_encoding.md R60. -/

namespace Sys2Proof.Machine

def exec (i : Instr) (s : State) : Host.Outcome State Fault Refusal :=
  match i with
  -- spec/40_memory_ops.md
  | .read w sg addr => Sys2Proof.Machine.execRead w sg addr s
  | .write w addr v => Sys2Proof.Machine.execWrite w addr v s
  | .readb addr => Sys2Proof.Machine.execReadb addr s
  | .writeb addr v => Sys2Proof.Machine.execWriteb addr v s
  | .used => Sys2Proof.Machine.execUsed s
  | .clear => Sys2Proof.Machine.execClear s
  -- spec/41_register_ops.md
  | .getreg idx => Sys2Proof.Machine.execGetreg idx s
  | .setreg idx v => Sys2Proof.Machine.execSetreg idx v s
  | .getspec idx => Sys2Proof.Machine.execGetspec idx s
  | .setspec idx v => Sys2Proof.Machine.execSetspec idx v s
  | .getname len chars => Sys2Proof.Machine.execGetname len chars s
  | .reset => Sys2Proof.Machine.execReset s
  | .getpc => Sys2Proof.Machine.execGetpc s
  | .setpc v => Sys2Proof.Machine.execSetpc v s
  -- spec/42_formatting.md
  | .fmthex digits v => Sys2Proof.Machine.execFmthex digits v s
  | .fmtsgn v => Sys2Proof.Machine.execFmtsgn v s

end Sys2Proof.Machine
end

