-- ==== Sys2Proof/WellFormed.lean ====
section
/-! DEFINITION. Which command terms the command port can carry (spec/30_encoding.md R61, R62, R66): the index field has
`IDX_BITS` bits and the value input `VW`. Nothing else restricts a command: every address, every width of the enumeration and
every value is legal (spec/20_memory.md R40, R47; spec/10_state.md R12).

The meanings do not ask for it: a command whose index has no encoding still means what its rule says (R66). -/

namespace Sys2Proof

/-- The value fits the `vw`-bit value input (R61). -/
def valueFits (vw v : Nat) : Bool := decide (v < 2 ^ vw)

/-- The number fits the 16-bit index field (R66). -/
def indexFits (idx : Nat) : Bool := decide (idx < 2 ^ Config.IDX_BITS)

/-- The port can carry the command (R61, R66, R67), on a block whose value input has `vw` bits. -/
def Instr.wellFormed (i : Instr) (vw : Nat := Config.VW) : Bool :=
  match i with
  | .read _ _ _ => true
  | .write _ _ v => valueFits vw v
  | .readb _ => true
  | .writeb _ v => valueFits vw v
  | .used => true
  | .clear => true
  | .getreg idx => indexFits idx
  | .setreg idx v => indexFits idx && valueFits vw v
  | .getspec idx => indexFits idx
  | .setspec idx v => indexFits idx && valueFits vw v
  | .getname len _ => indexFits len
  | .reset => true
  | .getpc => true
  | .setpc v => valueFits vw v
  | .fmthex digits v => indexFits digits && valueFits vw v
  | .fmtsgn v => valueFits vw v

end Sys2Proof
end

