-- ==== Sys2Proof/Decode.lean ====
section
/-! DEFINITION. The decoder and the encoder of the command port (spec/30_encoding.md R61 to R69).

The layout of the command word is R62, the operation codes R63, the width selector R64, the fields each command uses R67.
Decoding is total: it gives a command, or names the reserved encoding it rejects (R69). The port has one format and one
length (R74), and the three operand fields arrive together, so there is no byte order of a command to choose (R61). -/

namespace Sys2Proof

/-- `op`, bits 31:28 of the command word (R62). -/
def Request.op (r : Request) : BitVec 4 := r.cw.extractLsb' 28 4

/-- `wsel`, bits 27:25 (R62). -/
def Request.wsel (r : Request) : BitVec 3 := r.cw.extractLsb' 25 3

/-- `sg`, bit 24 (R62). -/
def Request.sg (r : Request) : Bool := r.cw.getLsbD 24

/-- `idx`, bits 15:0, an unsigned number used as it stands (R62, R66). -/
def Request.idx (r : Request) : Nat := (r.cw.extractLsb' 0 16).toNat

/-- The access width a selector names; 5, 6 and 7 are reserved (R64). -/
def widthOfSel (wsel : BitVec 3) : Option Width :=
  match wsel.toFin with
  | 0 => some .byte
  | 1 => some .wyde
  | 2 => some .tetra
  | 3 => some .octa
  | 4 => some .highTetra
  | 5 => none
  | 6 => none
  | 7 => none

/-- The command at the port (R63, R67). The four bits of `op`, from bit 31 down, read as the encodings of the opcode table do.
Unused fields are not looked at (R68). -/
def decode (r : Request) : Except Rejection Instr :=
  match r.op.getLsbD 3, r.op.getLsbD 2, r.op.getLsbD 1, r.op.getLsbD 0 with
  | false, false, false, false =>
    match widthOfSel r.wsel with
    | some w => .ok (.read w r.sg r.addr)
    | none => .error (.readWidth r.wsel)
  | false, false, false, true =>
    match widthOfSel r.wsel with
    | some w => .ok (.write w r.addr r.wdata)
    | none => .error (.writeWidth r.wsel)
  | false, false, true, false => .ok (.readb r.addr)
  | false, false, true, true => .ok (.writeb r.addr r.wdata)
  | false, true, false, false => .ok .used
  | false, true, false, true => .ok .clear
  | false, true, true, false => .ok (.getreg r.idx)
  | false, true, true, true => .ok (.setreg r.idx r.wdata)
  | true, false, false, false => .ok (.getspec r.idx)
  | true, false, false, true => .ok (.setspec r.idx r.wdata)
  | true, false, true, false => .ok (.getname r.idx r.addr)
  | true, false, true, true => .ok .reset
  | true, true, false, false => .ok .getpc
  | true, true, false, true => .ok (.setpc r.wdata)
  | true, true, true, false => .ok (.fmthex r.idx r.wdata)
  | true, true, true, true => .ok (.fmtsgn r.wdata)

/-- The width selector of an access width (R64). -/
def selOfWidth : Width → BitVec 3
  | .byte => 0
  | .wyde => 1
  | .tetra => 2
  | .octa => 3
  | .highTetra => 4

/-- The command word with these fields, bits 23:16 driven to 0: `(op << 28) | (wsel << 25) | (sg << 24) | idx` (R62, R68). -/
def commandWord (op : BitVec 4) (wsel : BitVec 3) (sg : Bool) (idx : Nat) : BitVec 32 :=
  op ++ wsel ++ BitVec.ofBool sg ++ 0#8 ++ BitVec.ofNat 16 idx

/-- The operand fields a requester drives for a command, unused fields 0 (R63, R67, R68). -/
def encode : Instr → Request
  | .read w sg a => ⟨commandWord 0x0 (selOfWidth w) sg 0, a, 0⟩
  | .write w a v => ⟨commandWord 0x1 (selOfWidth w) false 0, a, v⟩
  | .readb a => ⟨commandWord 0x2 0 false 0, a, 0⟩
  | .writeb a v => ⟨commandWord 0x3 0 false 0, a, v⟩
  | .used => ⟨commandWord 0x4 0 false 0, 0, 0⟩
  | .clear => ⟨commandWord 0x5 0 false 0, 0, 0⟩
  | .getreg idx => ⟨commandWord 0x6 0 false idx, 0, 0⟩
  | .setreg idx v => ⟨commandWord 0x7 0 false idx, 0, v⟩
  | .getspec idx => ⟨commandWord 0x8 0 false idx, 0, 0⟩
  | .setspec idx v => ⟨commandWord 0x9 0 false idx, 0, v⟩
  | .getname len chars => ⟨commandWord 0xA 0 false len, chars, 0⟩
  | .reset => ⟨commandWord 0xB 0 false 0, 0, 0⟩
  | .getpc => ⟨commandWord 0xC 0 false 0, 0, 0⟩
  | .setpc v => ⟨commandWord 0xD 0 false 0, 0, v⟩
  | .fmthex digits v => ⟨commandWord 0xE 0 false digits, 0, v⟩
  | .fmtsgn v => ⟨commandWord 0xF 0 false 0, 0, v⟩

/-- The rows of R67's table, one for each operation code from 0x0 up: the bits of the command word the command uses (`op`
among them), whether it uses `addr`, and whether it uses `wdata`. -/
def usedFields : List (BitVec 32 × Bool × Bool) :=
  [ (0xFF000000, true, false), (0xFE000000, true, true), (0xF0000000, true, false), (0xF0000000, true, true),
    (0xF0000000, false, false), (0xF0000000, false, false), (0xF000FFFF, false, false), (0xF000FFFF, false, true),
    (0xF000FFFF, false, false), (0xF000FFFF, false, true), (0xF000FFFF, true, false), (0xF0000000, false, false),
    (0xF0000000, false, false), (0xF0000000, false, true), (0xF000FFFF, false, true), (0xF0000000, false, true) ]

/-- The same command with every field R67 marks "-" driven to 0, as a well-behaved requester drives it (R68). -/
def Request.driven (r : Request) : Request :=
  match usedFields[r.op.toNat]? with
  | some (mask, usesAddr, usesWdata) =>
    ⟨r.cw &&& mask, if usesAddr then r.addr else 0, if usesWdata then r.wdata else 0⟩
  | none => r

/-- A table word as a command at the port: bits 31:0 are the command word, bits 95:32 the address operand, the bits from 96 up
the value operand, every bit from `nbits` up read as 0. The opcode table gives an operand no bits, so the host's words have
`nbits` = 32 and both operands are 0; the order of the operands above the word is the model's (log entry 6). -/
def Request.ofTableWord (nbits w : Nat) : Request :=
  let u := w % 2 ^ nbits
  ⟨BitVec.ofNat 32 u, BitVec.ofNat 64 (u >>> 32), u >>> 96⟩

/-- The command the decoder reads from a row's word, `none` where it rejects the word (R69). -/
def decodeTableWord (nbits w : Nat) : Option Instr :=
  match decode (Request.ofTableWord nbits w) with
  | .ok i => some i
  | .error _ => none

end Sys2Proof
end

