-- ==== Sys2Proof/Machine/Port.lean ====
section
/-! DEFINITION. The command port: what the block accepts next (spec/30_encoding.md R61; spec/70_reset_and_hazards.md R150, R156,
R157). One event at a time, performed whole before the next is accepted (spec/00_scope.md R4; spec/20_memory.md R54). -/

namespace Sys2Proof.Machine

/-- What the port asks of the block in one step. -/
inductive PortTurn where
  /-- Nothing is presented: the block waits (R150, R156). -/
  | idle
  /-- `rst` was asserted; the state after it (R150). -/
  | hardReset (t : State)
  /-- A command is accepted; the state in which it is performed. -/
  | run (i : Instr) (t : State)
  /-- The command presented is a reserved encoding (R69). -/
  | reserved (r : Rejection)
  deriving DecidableEq, Repr

/-- The port's next event, taken off the requester's sequence. -/
def portTurn (s : State) : PortTurn :=
  match s.port with
  | [] => .idle
  | .hardReset :: rest => .hardReset { s with port := rest }.hardReset
  | .command r :: rest =>
    match decode r with
    | .ok i => .run i { s with port := rest }
    | .error e => .reserved e

/-- The state with a command presented before all the requester still has to send. -/
def State.present (s : State) (r : Request) : State := { s with port := .command r :: s.port }

end Sys2Proof.Machine
end

