-- ==== Sys2Proof/Machine/Step.lean ====
section
/-! DEFINITION. One step of the block: one command, or one hard reset, or waiting (spec/70_reset_and_hazards.md R155, R156). -/

namespace Sys2Proof.Machine

/-- One step. A command is performed whole (R4); a reserved encoding has no meaning and is refused (R69); with nothing presented
the block keeps all its state (R141). -/
def step (s : State) : Host.Outcome State Fault Refusal :=
  match portTurn s with
  | .idle => .next s
  | .hardReset t => .next t
  | .run i t => exec i t
  | .reserved r => .refused (.reservedEncoding r)

/-- The state whose next step performs the command of a table word: the command presented at the port, before what the
requester still has to send (log entry 6). -/
def State.withFetchWord (s : State) (nbits w : Nat) : State := s.present (Request.ofTableWord nbits w)

end Sys2Proof.Machine
end

