-- ==== Sys2Proof/Machine/Flags.lean ====
section
/-! DEFINITION. What the block reports beside its change of state. It has no flag, condition code or status register
(spec/10_state.md R22), so no flag is computed here: the response lines of the port are its whole report
(spec/30_encoding.md R61, R70, R71). -/

namespace Sys2Proof.Machine

/-- The error code an ERR response carries (R71, R130). -/
def ErrorKind.code : ErrorKind → Word
  | .outOfRangeIndex => 1
  | .unknownRegister => 2

/-- The line `rsp.kind` (R70). -/
def Response.kind : Response → BitVec 3
  | .ack => 0
  | .val _ => 1
  | .byte _ => 2
  | .addrs _ => 3
  | .str _ => 4
  | .err _ => 5

/-- The line `rsp.data`: the scalar payload of VAL, BYTE and ERR, 0 on ACK, whose payload is "none" (R70, R71). On ADDRS and STR,
whose payload is `rsp.seq`, R70 gives the line no value, and 0 there is the model's choice. DESIGN CHOICE (log entry 18), unsafe. -/
def Response.data : Response → Word
  | .ack => 0
  | .val v => v
  | .byte b => b.setWidth 64
  | .addrs _ => 0
  | .str _ => 0
  | .err e => e.code

/-- The line `rsp.seq`: the abstract sequence payload of ADDRS and STR, addresses or character codes (R61, R70); empty on ERR, which
carries nothing but the code (R71). On ACK, VAL and BYTE the spec gives the line no value, and the empty sequence there is the
model's choice. DESIGN CHOICE (log entry 18), unsafe. -/
def Response.seq : Response → List Nat
  | .ack => []
  | .val _ => []
  | .byte _ => []
  | .addrs as => as.map BitVec.toNat
  | .str chars => chars.map BitVec.toNat
  | .err _ => []

end Sys2Proof.Machine
end

