-- ==== Sys2Proof/Machine/Requester.lean ====
section
/-! DEFINITION. The requester's side of the port: the source's functional form (spec/30_encoding.md R66, R73, R76;
spec/20_memory.md R41), the pseudo-commands of the script notation (R77), the script notation itself (R75), runs
(spec/70_reset_and_hazards.md R156) and several blocks side by side (spec/10_state.md R24). The block's step uses none of it. -/

namespace Sys2Proof.Machine

/-! ### The functional form -/

/-- A mathematical integer as the requester presents it on a `vw`-bit value input: `v mod 2^vw` (R73). -/
def presented (v : Int) (vw : Nat := Config.VW) : Nat := (v % 2 ^ vw).toNat

/-- The one access width of a width argument and the `highTetra` option; outside the domain, a refusal (R41, R76, R140). -/
def accessWidth (w : WidthArg) (highTetra : Bool) : Except Refusal Width :=
  match w, highTetra with
  | .highTetra, _ => .ok .highTetra
  | .bytes 4, true => .ok .highTetra
  | .bytes 1, true => .error (.highTetraWithWidth .byte)
  | .bytes 2, true => .error (.highTetraWithWidth .wyde)
  | .bytes 8, true => .error (.highTetraWithWidth .octa)
  | .bytes 1, false => .ok .byte
  | .bytes 2, false => .ok .wyde
  | .bytes 4, false => .ok .tetra
  | .bytes 8, false => .ok .octa
  | .bytes n, _ => .error (.widthOutsideEnumeration (.bytes n))
  | .other, _ => .error (.widthOutsideEnumeration .other)

/-- The name's first eight bytes packed from bit 63 down, missing bytes 0 (R72). -/
def packName (n : List Byte) : Addr :=
  BitVec.ofNat 64 (combine ((List.range 8).map fun k => n.getD k 0))

/-- The source's operations in call syntax (R8, R76). A name is a byte string, a value a mathematical integer, an index or
a digit count any number. -/
inductive Call where
  | read (a : Addr) (w : WidthArg) (signed highTetra : Bool)
  | write (a : Addr) (w : WidthArg) (v : Int) (highTetra : Bool)
  | readByte (a : Addr)
  | writeByte (a : Addr) (b : Int)
  | getUsedAddresses
  | clear
  | getReg (i : NumberArg)
  | setReg (i : NumberArg) (v : Int)
  | getSpecialReg (j : NumberArg)
  | setSpecialReg (j : NumberArg) (v : Int)
  | getRegByName (n : List Byte)
  | reset
  | readPc
  | assignPc (v : Int)
  | formatHex (v : Int) (digits : NumberArg)
  | formatSigned (v : Int)
  deriving DecidableEq, Repr

/-- What a call denotes: a command, an error that no encoding expresses, or nothing (outside the domain). -/
inductive Denotation where
  | command (i : Instr)
  | error (e : ErrorKind)
  | outside (r : Refusal)
  deriving DecidableEq, Repr

/-- The natural number an argument is, if it is one. -/
def naturalOf : NumberArg → Option Nat
  | .integer (.ofNat n) => some n
  | .integer (.negSucc _) => none
  | .notInteger => none

/-- A command that takes an index: an index that is negative or no integer has no encoding and is out of range (R66, R100,
R130). -/
def withIndex (i : NumberArg) (f : Nat → Instr) : Denotation :=
  match naturalOf i with
  | some n => .command (f n)
  | none => .error .outOfRangeIndex

/-- The command a call denotes (R76, R66, R73). -/
def Call.denotes (c : Call) (vw : Nat := Config.VW) : Denotation :=
  match c with
  | .read a w sg ht =>
    match accessWidth w ht with
    | .ok w' => .command (.read w' sg a)
    | .error r => .outside r
  | .write a w v ht =>
    match accessWidth w ht with
    | .ok w' => .command (.write w' a (presented v vw))
    | .error r => .outside r
  | .readByte a => .command (.readb a)
  | .writeByte a b => .command (.writeb a (presented b vw))
  | .getUsedAddresses => .command .used
  | .clear => .command .clear
  | .getReg i => withIndex i fun n => .getreg n
  | .setReg i v => withIndex i fun n => .setreg n (presented v vw)
  | .getSpecialReg j => withIndex j fun n => .getspec n
  | .setSpecialReg j v => withIndex j fun n => .setspec n (presented v vw)
  | .getRegByName n => .command (.getname n.length (packName n))
  | .reset => .command .reset
  | .readPc => .command .getpc
  | .assignPc v => .command (.setpc (presented v vw))
  | .formatHex v d =>
    match naturalOf d with
    | some n => .command (.fmthex n (presented v vw))
    | none => .outside (.digitsNotNatural d)
  | .formatSigned v => .command (.fmtsgn (presented v vw))

/-- A call performed on the block (R76, R66, R140). -/
def Call.perform (c : Call) (s : State) (vw : Nat := Config.VW) : Result :=
  match c.denotes vw with
  | .command i => exec i s
  | .error e => raise e s
  | .outside r => .refused r

/-! ### Pseudo-commands -/

/-- The pseudo-commands of the script notation (R77). -/
inductive Pseudo where
  | fullreset
  | load (w : Width) (sg : Bool) (i : Nat) (a : Addr)
  | store (w : Width) (i : Nat) (a : Addr)
  | loadspec (w : Width) (sg : Bool) (j : Nat) (a : Addr)
  | storespec (w : Width) (j : Nat) (a : Addr)
  deriving DecidableEq, Repr

/-- The first command of the expansion (R77). -/
def Pseudo.first : Pseudo → Instr
  | .fullreset => .reset
  | .load w sg _ a => .read w sg a
  | .store _ i _ => .getreg i
  | .loadspec w sg _ a => .read w sg a
  | .storespec _ j _ => .getspec j

/-- The second command, given the first one's response; `none` when the requester has no value to pass on (R77). -/
def Pseudo.second (p : Pseudo) (r : Option Response) : Option Instr :=
  match p, r with
  | .fullreset, _ => some .clear
  | .load _ _ i _, some (.val v) => some (.setreg i v.toNat)
  | .store w _ a, some (.val v) => some (.write w a v.toNat)
  | .loadspec _ _ j _, some (.val v) => some (.setspec j v.toNat)
  | .storespec w _ a, some (.val v) => some (.write w a v.toNat)
  | .load .., _ => none
  | .store .., _ => none
  | .loadspec .., _ => none
  | .storespec .., _ => none

/-- The expansion performed: each command is atomic, the sequence is not (R77). -/
def Pseudo.perform (p : Pseudo) (s : State) : Result :=
  match exec p.first s with
  | .next t =>
    match p.second t.rsp with
    | some i => exec i t
    | none => .next t
  | .fault r => .fault r
  | .refused r => .refused r

/-! ### Script notation -/

/-- The width letter (R75). -/
def widthLetter : Width → String
  | .byte => "B"
  | .wyde => "W"
  | .tetra => "T"
  | .octa => "O"
  | .highTetra => "H"

/-- Character codes as text, for the name in a script line and for reading a STR response. -/
def textOf (cs : List Byte) : String := String.ofList (cs.map fun c => Char.ofNat c.toNat)

/-- The script line of a command, numbers in decimal (R75). -/
def scriptLine : Instr → String
  | .read w sg a => "READ." ++ widthLetter w ++ (if sg then ".S" else "") ++ " " ++ toString a.toNat
  | .write w a v => "WRITE." ++ widthLetter w ++ " " ++ toString a.toNat ++ ", " ++ toString v
  | .readb a => "READB " ++ toString a.toNat
  | .writeb a v => "WRITEB " ++ toString a.toNat ++ ", " ++ toString v
  | .used => "USED"
  | .clear => "CLEAR"
  | .getreg i => "GETREG " ++ toString i
  | .setreg i v => "SETREG " ++ toString i ++ ", " ++ toString v
  | .getspec j => "GETSPEC " ++ toString j
  | .setspec j v => "SETSPEC " ++ toString j ++ ", " ++ toString v
  | .getname len chars => "GETNAME \"" ++ textOf (nameBytes len chars) ++ "\""
  | .reset => "RESET"
  | .getpc => "GETPC"
  | .setpc v => "SETPC " ++ toString v
  | .fmthex d v => "FMTHEX " ++ toString v ++ ", " ++ toString d
  | .fmtsgn v => "FMTSGN " ++ toString v

/-! ### Runs -/

/-- The state with a sequence of events still to come and nothing else at the port. -/
def State.withPort (s : State) (es : List PortEvent) : State := { s with port := es }

/-- The events a requester sends to have these commands performed in order. -/
def eventsOf (is : List Instr) : List PortEvent := is.map fun i => .command (encode i)

/-- A run: the responses of a sequence of events, in order, and the state it ends in (R156). A hard reset answers nothing. -/
def runEvents : List PortEvent → State → Host.Outcome (List (Option Response) × State) Fault Refusal
  | [], s => .next ([], s)
  | e :: es, s =>
    match step (s.withPort [e]) with
    | .next t =>
      match runEvents es t with
      | .next (rs, u) => .next (t.rsp :: rs, u)
      | .fault r => .fault r
      | .refused r => .refused r
    | .fault r => .fault r
    | .refused r => .refused r

/-! ### Several blocks -/

/-- One step of block `k` of several; the blocks share nothing (R24). `none` when there is no block `k`. -/
def stepBlock (k : Nat) (bs : List State) : Option (Host.Outcome (List State) Fault Refusal) :=
  bs[k]?.map fun s =>
    match step s with
    | .next t => .next (bs.set k t)
    | .fault r => .fault r
    | .refused r => .refused r

end Sys2Proof.Machine
end

