-- ==== Sys2Proof/Safety.lean ====
section
/-! DEFINITION. What a claim may rely on: the state invariant (spec/10_state.md R20, R21), what the requester has just sent, and
the history of a run in the terms of spec/20_memory.md R49. Nothing here is used by the machine. -/

namespace Sys2Proof.Machine

/-! ### The invariant -/

/-- `USED` is a set of 64-bit addresses, each once, ascending (R20, R84). -/
abbrev usedOk (l : List Nat) : Prop := l.Pairwise (· < ·) ∧ ∀ a ∈ l, a < 2 ^ 64

/-- The invariant: memory is in canonical form, `USED` is an ascending set of 64-bit addresses, and an address with a non-zero
byte is in `USED` (R19, R20, R21). -/
abbrev State.Inv (s : State) : Prop :=
  s.mem.wf ∧ usedOk s.used ∧ ∀ c ∈ s.mem, c.1 ∈ s.used

/-! ### Reading a state -/

/-- `mem[a]` for a 64-bit address (R7). -/
def State.byteAt (s : State) (a : Addr) : Byte := s.mem.read a.toNat

/-- `a` is in `USED` (R20). -/
def State.isUsed (s : State) (a : Addr) : Prop := a.toNat ∈ s.used

/-- Two states agree on the five architectural components of R10; the port may differ. -/
def State.sameArch (s t : State) : Prop :=
  t.mem = s.mem ∧ t.used = s.used ∧ t.x = s.x ∧ t.sr = s.sr ∧ t.pc = s.pc

/-- Two states agree on everything but memory, `USED` and the response: what a storing command keeps. -/
def State.sameRegisters (s t : State) : Prop :=
  t.x = s.x ∧ t.sr = s.sr ∧ t.pc = s.pc ∧ t.port = s.port

/-- Two states agree on every byte, on `USED` and on what is still to come at the port: what a register command keeps. -/
def State.sameStore (s t : State) : Prop :=
  t.mem = s.mem ∧ t.used = s.used ∧ t.port = s.port

/-- The next step performs the command `i`. -/
def State.performs (s : State) (i : Instr) : Prop := ∃ r rest, s.port = .command r :: rest ∧ decode r = .ok i

/-- The next step is a hard reset. -/
def State.resets (s : State) : Prop := ∃ rest, s.port = .hardReset :: rest

/-! ### What the rules say of an access, in numbers -/

/-- The address `a` is one of the `ew(W)` bytes of an access of width `w` at `addr` (R31, R42). -/
abbrev covers (w : Width) (addr a : Addr) : Prop :=
  (alignDown addr w).toNat ≤ a.toNat ∧ a.toNat < (alignDown addr w).toNat + ew w

/-- The quantity a WRITE stores: bits 63:32 of the value for HIGH_TETRA (R39), else the low `8 * ew(W)` bits (R38). -/
def storedQuantity (w : Width) (v : Nat) : Nat := if w = .highTetra then v / 2 ^ 32 % 2 ^ 32 else v % 2 ^ (8 * ew w)

/-- Byte `k` of the stored quantity, counted from the most significant (R38, R39). -/
def storedByte (w : Width) (v k : Nat) : Byte := BitVec.ofNat 8 (storedQuantity w v / 256 ^ (ew w - 1 - k))

/-- The `n` bytes from `a` up as the big-endian sum of R34. -/
def bigEndian (s : State) (a n : Nat) : Nat :=
  ((List.range n).map fun k => (s.mem.read (a + k)).toNat * 256 ^ (n - 1 - k)).sum

/-! ### History -/

/-- The byte a command leaves at `a`, if it writes there (R81, R83, R85). -/
def writesByte (a : Addr) : Instr → Option Byte
  | .write w addr v =>
    if covers w addr a then some (storedByte w v (a.toNat - (alignDown addr w).toNat)) else none
  | .writeb addr v => if addr = a then some (BitVec.ofNat 8 v) else none
  | .clear => some 0
  | .read .. | .readb .. | .used | .getreg .. | .setreg .. | .getspec .. | .setspec .. | .getname .. | .reset | .getpc
  | .setpc .. | .fmthex .. | .fmtsgn .. => none

/-- Whether a command puts `a` into `USED` or takes it out, if it does either (R20, R81, R83, R85). -/
def writesUse (a : Addr) : Instr → Option Bool
  | .write w addr _ => if covers w addr a then some true else none
  | .writeb addr _ => if addr = a then some true else none
  | .clear => some false
  | .read .. | .readb .. | .used | .getreg .. | .setreg .. | .getspec .. | .setspec .. | .getname .. | .reset | .getpc
  | .setpc .. | .fmthex .. | .fmtsgn .. => none

/-- The value a command leaves in general register `k`, if it writes it (R101, R106). -/
def writesReg (k : Fin 256) : Instr → Option Word
  | .setreg idx v => if idx = k.val then some (BitVec.ofNat 64 v) else none
  | .reset => some 0
  | .read .. | .write .. | .readb .. | .writeb .. | .used | .clear | .getreg .. | .getspec .. | .setspec .. | .getname ..
  | .getpc | .setpc .. | .fmthex .. | .fmtsgn .. => none

/-- The value a command leaves in slot `k`, if it writes it (R103, R106). -/
def writesSlot (k : Fin 32) : Instr → Option Word
  | .setspec idx v => if idx = k.val then some (BitVec.ofNat 64 v) else none
  | .reset => some 0
  | .read .. | .write .. | .readb .. | .writeb .. | .used | .clear | .getreg .. | .setreg .. | .getspec .. | .getname ..
  | .getpc | .setpc .. | .fmthex .. | .fmtsgn .. => none

/-- The value a command leaves in the program counter, if it writes it (R106, R108). -/
def writesPc : Instr → Option Word
  | .setpc v => some (BitVec.ofNat 64 v)
  | .reset => some 0
  | .read .. | .write .. | .readb .. | .writeb .. | .used | .clear | .getreg .. | .setreg .. | .getspec .. | .setspec ..
  | .getname .. | .getpc | .fmthex .. | .fmtsgn .. => none

/-- What the most recent command of a history (oldest first) left, or what stood before it (R49). -/
def latest {α : Type} (h : List Instr) (f : Instr → Option α) (before : α) : α := (h.reverse.findSome? f).getD before

/-! ### Names and numerals, as the rules describe them -/

/-- The number a digit sequence denotes, most significant first. -/
def digitsNumber (base : Nat) (ds : List Nat) : Nat := ds.foldl (fun v d => base * v + d) 0

/-- The numeral of `n` in a base: digits below the base, at least one, no leading zero unless it is the only digit, denoting `n`
(R104, R120, R121). -/
def isNumeral (base n : Nat) (ds : List Nat) : Prop :=
  ds ≠ [] ∧ (∀ d ∈ ds, d < base) ∧ (ds.length = 1 ∨ ds.head? ≠ some 0) ∧ digitsNumber base ds = n

/-- The ASCII code of a digit below 16, upper case (R72, R120). -/
def asciiDigit (d : Nat) : Byte := if d < 10 then BitVec.ofNat 8 (48 + d) else BitVec.ofNat 8 (55 + d)

/-- The name is `$` followed by the canonical decimal numeral of `i` (R104). -/
def isDesignator (n : List Byte) (i : Fin 256) : Prop := ∃ ds, isNumeral 10 i.val ds ∧ n = 0x24 :: ds.map asciiDigit

end Sys2Proof.Machine
end

