-- ==== Sys2Proof/Certificates/Slice0/Obligations.lean ====
section
/-! DEFINITION. The statements for the provers. Each docstring names the rules it formalises. A statement about a next state
says that the command completes: `exec i s = .next t` stands in its conclusion, for every state and every operand. -/

open Sys2Proof Sys2Proof.Machine

/-! ### Power-on, the port, one step -/

/-- Power-on: memory empty and reading 0 everywhere, every register, slot and the program counter 0, nothing at the port. The
register values are the spec's decision D3 (log entry 3), the port's the model's (log entry 4). -/
def Obligations.PowerOnState : Prop :=
  (∀ a : Addr, State.reset.byteAt a = 0) ∧ (∀ a : Addr, ¬ State.reset.isUsed a) ∧ (∀ i, State.reset.readReg i = 0) ∧
  (∀ j, State.reset.readSlot j = 0) ∧ State.reset.pc = 0 ∧ State.reset.port = [] ∧ State.reset.rsp = none

/-- Hard reset between commands puts the block into the power-on state, whatever it held, and answers nothing (R150, R157). -/
def Obligations.HardResetGivesPowerOn : Prop :=
  ∀ (s : State) (rest : List PortEvent), s.port = .hardReset :: rest → step s = .next { State.reset with port := rest }

/-- With no command presented the block waits and keeps all its state (R141, R150; the idle step is the model's, log entry 4). -/
def Obligations.IdleBlockKeepsState : Prop := ∀ s : State, s.port = [] → step s = .next s

/-- A step performs the command the decoder reads at the port, with the command taken off the requester's sequence. -/
def Obligations.StepPerformsDecodedCommand : Prop :=
  ∀ (s : State) (r : Request) (rest : List PortEvent) (i : Instr),
    s.port = .command r :: rest → decode r = .ok i → step s = exec i { s with port := rest }

/-- The only reserved encodings are READ and WRITE with `wsel` 5, 6 or 7, and a step refuses them and nothing else (R69). -/
def Obligations.OnlyReservedWidthsRefused : Prop :=
  (∀ r : Request, (∃ e, decode r = .error e) ↔ (r.op = 0x0 ∨ r.op = 0x1) ∧ 5 ≤ r.wsel.toNat) ∧
  (∀ (s : State) (r : Request) (rest : List PortEvent), s.port = .command r :: rest → 5 ≤ r.wsel.toNat →
    (r.op = 0x0 → step s = .refused (.reservedEncoding (.readWidth r.wsel))) ∧
    (r.op = 0x1 → step s = .refused (.reservedEncoding (.writeWidth r.wsel)))) ∧
  (∀ (s : State) (q : Refusal), step s = .refused q →
    ∃ r rest, s.port = .command r :: rest ∧ (r.op = 0x0 ∨ r.op = 0x1) ∧ 5 ≤ r.wsel.toNat)

/-! ### Encoding -/

/-- Command words written out from R62 to R64 decode to the commands they stand for. -/
def Obligations.WrittenOutWordsDecode : Prop :=
  decode ⟨0b00001000000000000000000000000000#32, 0x3ED, 0⟩ = .ok (.read .highTetra false 0x3ED) ∧
  decode ⟨0b00000011000000000000000000000000#32, 0x2003, 0⟩ = .ok (.read .wyde true 0x2003) ∧
  decode ⟨0b00010110000000000000000000000000#32, 0x3E8, 7⟩ = .ok (.write .octa 0x3E8 7) ∧
  decode ⟨0b01110000000000000000000011111111#32, 0, 2 ^ 64 + 5⟩ = .ok (.setreg 255 (2 ^ 64 + 5)) ∧
  decode ⟨0b10000000000000000000000000100000#32, 0, 0⟩ = .ok (.getspec 32) ∧
  decode ⟨0b10100000000000000000000000000100#32, 0x2432353500000000, 0⟩ = .ok (.getname 4 0x2432353500000000) ∧
  decode ⟨0b11100000000000000000000000010000#32, 0, 171⟩ = .ok (.fmthex 16 171) ∧
  decode ⟨0b11110000000000000000000000000000#32, 0, 42⟩ = .ok (.fmtsgn 42)

/-- Decoding the encoding of a well-formed command gives the command back, on a block with any width of the value input. -/
def Obligations.DecodeEncodeRoundTrip : Prop :=
  ∀ (vw : Nat) (i : Instr), i.wellFormed vw = true → decode (encode i) = .ok i

/-- Encoding what was decoded gives the request back with its unused fields driven to 0: no field a command uses is lost (R67). -/
def Obligations.EncodeDecodeDrivesUnused : Prop :=
  ∀ (r : Request) (i : Instr), decode r = .ok i → encode i = r.driven

/-- Unused fields are ignored: the bits of `cw[23:16]`, every field R67 marks "-", the bits of the value above those the command
uses, and the name bytes beyond the length (R68, R72). -/
def Obligations.UnusedFieldsIgnored : Prop :=
  (∀ r : Request, decode r.driven = decode r) ∧
  (∀ (r : Request) (u : BitVec 8), decode { r with cw := r.cw ^^^ (u.setWidth 32 <<< 16) } = decode r) ∧
  (∀ (w : Width) (a : Addr) (v v' : Nat) (s : State), storedQuantity w v = storedQuantity w v' →
    exec (.write w a v) s = exec (.write w a v') s) ∧
  (∀ (a : Addr) (v v' : Nat) (s : State), v % 2 ^ 8 = v' % 2 ^ 8 → exec (.writeb a v) s = exec (.writeb a v') s) ∧
  (∀ (n v v' : Nat) (s : State), v % 2 ^ 64 = v' % 2 ^ 64 →
    exec (.setreg n v) s = exec (.setreg n v') s ∧ exec (.setspec n v) s = exec (.setspec n v') s ∧
    exec (.setpc v) s = exec (.setpc v') s ∧ exec (.fmthex n v) s = exec (.fmthex n v') s ∧
    exec (.fmtsgn v) s = exec (.fmtsgn v') s) ∧
  (∀ (len : Nat) (c c' : Addr) (s : State), c.toNat / 2 ^ (64 - 8 * len) = c'.toNat / 2 ^ (64 - 8 * len) →
    exec (.getname len c) s = exec (.getname len c') s)

/-! ### The invariant -/

/-- The invariant holds at power-on. -/
def Obligations.InvHoldsAtPowerOn : Prop := State.reset.Inv

/-- Every step keeps the invariant: canonical memory, `USED` an ascending set of 64-bit addresses, every non-zero byte in it. -/
def Obligations.StepKeepsInv : Prop := ∀ s t : State, s.Inv → step s = .next t → t.Inv

/-- Where the invariant holds, an address outside `USED` reads 0 (R21; the converse fails, as a zero written shows). -/
def Obligations.UnusedAddressReadsZero : Prop :=
  (∀ (s : State) (a : Addr), s.Inv → ¬ s.isUsed a → s.byteAt a = 0) ∧
  (∀ a : Addr, ∃ t, exec (.writeb a 0) State.reset = .next t ∧ t.byteAt a = 0 ∧ t.isUsed a)

/-! ### The translator -/

/-- `alignDown` clears the low `log2(ew(W))` bits and no other (R31). -/
def Obligations.AlignDownClearsLowBits : Prop :=
  ∀ (a : Addr) (w : Width),
    (alignDown a w).toNat = a.toNat - a.toNat % ew w ∧
    alignDown a w = a &&& ~~~(BitVec.ofNat 64 (ew w - 1)) ∧
    (∀ k, (alignDown a w).getLsbD k = (a.getLsbD k && decide (Nat.log2 (ew w) ≤ k))) ∧
    ew w = match w with | .byte => 1 | .wyde => 2 | .tetra => 4 | .octa => 8 | .highTetra => 4

/-- The six properties of `alignDown` (R32), and that no access wraps around the top of the address space (R43). -/
def Obligations.AlignDownProperties : Prop :=
  ∀ (a : Addr) (w : Width),
    alignDown a w ≤ a ∧ (alignDown a w).toNat % ew w = 0 ∧ a.toNat - (alignDown a w).toNat < ew w ∧
    alignDown (alignDown a w) w = alignDown a w ∧ (alignDown a w = a ↔ a.toNat % ew w = 0) ∧
    alignDown a .highTetra = alignDown a .tetra ∧ (alignDown a w).toNat + ew w ≤ 2 ^ 64

/-! ### Memory commands -/

/-- READ answers the big-endian value of the `ew(W)` bytes from the aligned address, shifted into the upper half for HIGH_TETRA
whatever `sg`, else sign- or zero-extended; it changes nothing but the response (R80, R34 to R37). -/
def Obligations.ReadAnswersTranslatedValue : Prop :=
  (∀ (r : Request) (w : Width), r.op = 0x0 → r.wsel = selOfWidth w → decode r = .ok (.read w r.sg r.addr)) ∧
  ∀ (w : Width) (sg : Bool) (a : Addr) (s : State), ∃ v : Word,
    exec (.read w sg a) s = .next { s with rsp := some (.val v) } ∧
    v.toNat =
      (let n := ew w
       let u := bigEndian s (alignDown a w).toNat n
       if w = .highTetra then u * 2 ^ 32
       else if sg = true ∧ 2 ^ (8 * n - 1) ≤ u then u + 2 ^ 64 - 2 ^ (8 * n)
       else u)

/-- WRITE stores byte `k` of the quantity it takes from the value at the aligned address plus `k`, adds exactly those addresses
to `USED`, and changes no other byte, no register, no slot and not the program counter (R81, R38, R39). -/
def Obligations.WriteStoresBigEndianBytes : Prop :=
  (∀ (r : Request) (w : Width), r.op = 0x1 → r.wsel = selOfWidth w → decode r = .ok (.write w r.addr r.wdata)) ∧
  ∀ (w : Width) (a : Addr) (v : Nat) (s : State), ∃ t : State,
    exec (.write w a v) s = .next t ∧ t.rsp = some .ack ∧ s.sameRegisters t ∧
    (∀ b : Addr, covers w a b → t.byteAt b = storedByte w v (b.toNat - (alignDown a w).toNat) ∧ t.isUsed b) ∧
    (∀ b : Addr, ¬ covers w a b → t.byteAt b = s.byteAt b ∧ (t.isUsed b ↔ s.isUsed b))

/-- READB answers the byte at the address as it is, as READ.B does in value, and changes nothing but the response (R82). -/
def Obligations.ReadbAnswersByte : Prop :=
  (∀ r : Request, r.op = 0x2 → decode r = .ok (.readb r.addr)) ∧
  ∀ (a : Addr) (s : State),
    exec (.readb a) s = .next { s with rsp := some (.byte (s.byteAt a)) } ∧
    exec (.read .byte false a) s = .next { s with rsp := some (.val ((s.byteAt a).setWidth 64)) }

/-- WRITEB stores the value's low byte at the address as it is, which joins `USED` also when the byte is 0; nothing else changes
but the response, and WRITE.B has the same effect (R83). -/
def Obligations.WritebStoresLowByte : Prop :=
  (∀ r : Request, r.op = 0x3 → decode r = .ok (.writeb r.addr r.wdata)) ∧
  ∀ (a : Addr) (v : Nat) (s : State), ∃ t : State,
    exec (.writeb a v) s = .next t ∧ t.rsp = some .ack ∧ s.sameRegisters t ∧
    t.byteAt a = BitVec.ofNat 8 v ∧ t.isUsed a ∧
    (∀ b : Addr, b ≠ a → t.byteAt b = s.byteAt b ∧ (t.isUsed b ↔ s.isUsed b)) ∧
    exec (.write .byte a v) s = .next t

/-- USED answers the addresses of `USED`, each once, ascending as unsigned numbers, and changes nothing but the response; the
sequence is empty at power-on and after CLEAR (R84). -/
def Obligations.UsedListsAddressesAscending : Prop :=
  (∀ r : Request, r.op = 0x4 → decode r = .ok .used) ∧
  ∀ s : State, ∃ as : List Addr,
    exec .used s = .next { s with rsp := some (.addrs as) } ∧ as.length = s.used.length ∧
    (s.Inv → as.Pairwise (fun a b => a.toNat < b.toNat) ∧ ∀ a : Addr, a ∈ as ↔ s.isUsed a) ∧
    exec .used State.reset = .next { State.reset with rsp := some (.addrs []) } ∧
    ∀ t, exec .clear s = .next t → exec .used t = .next { t with rsp := some (.addrs []) }

/-- CLEAR destroys every store entry and touches nothing else; it is idempotent, leaves the memory of power-on, and no other
command takes an address out of `USED` (R85). -/
def Obligations.ClearEmptiesMemory : Prop :=
  (∀ r : Request, r.op = 0x5 → decode r = .ok .clear) ∧
  ∀ s : State, ∃ t : State,
    exec .clear s = .next t ∧ t.rsp = some .ack ∧ s.sameRegisters t ∧
    (∀ a : Addr, t.byteAt a = 0 ∧ ¬ t.isUsed a) ∧ t.mem = State.reset.mem ∧ t.used = State.reset.used ∧
    exec .clear t = .next t ∧
    ∀ (i : Instr) (u : State) (a : Addr), i ≠ .clear → exec i s = .next u → s.isUsed a → u.isUsed a

/-- A misaligned READ or WRITE is the same access as the aligned one below it, and differs in nothing from it; READB and WRITEB
take the address as it is (R42). -/
def Obligations.MisalignedAccessRoundsDown : Prop :=
  ∀ (w : Width) (a : Addr) (s : State),
    (∀ sg, exec (.read w sg a) s = exec (.read w sg (alignDown a w)) s) ∧
    (∀ v, exec (.write w a v) s = exec (.write w (alignDown a w) v) s) ∧
    (∀ b : Addr, alignDown b w = alignDown a w → ∀ sg v,
      exec (.read w sg a) s = exec (.read w sg b) s ∧ exec (.write w a v) s = exec (.write w b v) s) ∧
    exec (.readb a) s = .next { s with rsp := some (.byte (s.byteAt a)) } ∧
    ∀ v, ∃ t, exec (.writeb a v) s = .next t ∧ t.byteAt a = BitVec.ofNat 8 v

/-- A value written and read back at the same width: its low `8n` bits, sign-extended with `sg`; the upper half for HIGH_TETRA
(R46, whose last two sentences the spec derives). -/
def Obligations.WriteReadRoundTrip : Prop :=
  ∀ (w : Width) (sg : Bool) (a : Addr) (v : Nat) (s : State), ∃ t u : State,
    exec (.write w a v) s = .next t ∧ exec (.read w sg a) t = .next u ∧
    u.rsp = some (.val (match w, sg with
      | .byte, false => BitVec.ofNat 64 (v % 2 ^ 8)
      | .wyde, false => BitVec.ofNat 64 (v % 2 ^ 16)
      | .tetra, false => BitVec.ofNat 64 (v % 2 ^ 32)
      | .octa, _ => BitVec.ofNat 64 v
      | .byte, true => (BitVec.ofNat 8 v).signExtend 64
      | .wyde, true => (BitVec.ofNat 16 v).signExtend 64
      | .tetra, true => (BitVec.ofNat 32 v).signExtend 64
      | .highTetra, _ => BitVec.ofNat 64 (v / 2 ^ 32 % 2 ^ 32) <<< 32))

/-- Byte order: after an octa is written, eight byte reads from the aligned address up give its bytes from most to least
significant (R33). -/
def Obligations.OctaBytesMostSignificantFirst : Prop :=
  ∀ (a : Addr) (v : Nat) (s : State), ∃ t : State, exec (.write .octa a v) s = .next t ∧
    ∀ k : Nat, k < 8 →
      exec (.readb (alignDown a .octa + BitVec.ofNat 64 k)) t =
        .next { t with rsp := some (.byte ((BitVec.ofNat 64 v).extractLsb' (8 * (7 - k)) 8)) }

/-- Accesses of different widths compose byte by byte: after a WRITE, byte `j` of a READ of any width (not HIGH_TETRA, unsigned)
is the stored byte where the WRITE put one and the old byte elsewhere (R45). -/
def Obligations.MixedWidthsComposeByBytes : Prop :=
  ∀ (w w' : Width) (a a' : Addr) (v : Nat) (s : State), w' ≠ .highTetra → ∃ (t : State) (val : Word),
    exec (.write w a v) s = .next t ∧ exec (.read w' false a') t = .next { t with rsp := some (.val val) } ∧
    ∀ j, j < ew w' →
      (covers w a (alignDown a' w' + BitVec.ofNat 64 j) →
        val.toNat / 256 ^ (ew w' - 1 - j) % 256 =
          (storedByte w v ((alignDown a' w').toNat + j - (alignDown a w).toNat)).toNat) ∧
      (¬ covers w a (alignDown a' w' + BitVec.ofNat 64 j) →
        val.toNat / 256 ^ (ew w' - 1 - j) % 256 = (s.byteAt (alignDown a' w' + BitVec.ofNat 64 j)).toNat)

/-- A high-tetra read is the unsigned tetra read shifted into the upper half, signed or not (R35). -/
def Obligations.HighTetraReadIsShiftedTetra : Prop :=
  ∀ (a : Addr) (s : State), ∃ v : Word,
    exec (.read .tetra false a) s = .next { s with rsp := some (.val v) } ∧
    ∀ sg, exec (.read .highTetra sg a) s = .next { s with rsp := some (.val (v <<< 32)) }

/-- A signed and an unsigned read agree on the low `8n` bits, and differ exactly when the top bit of those is 1 at a width below
OCTA (R36, R37). -/
def Obligations.SignedAndUnsignedReadsAgree : Prop :=
  ∀ (w : Width) (a : Addr) (s : State), ∃ u v : Word,
    exec (.read w false a) s = .next { s with rsp := some (.val u) } ∧
    exec (.read w true a) s = .next { s with rsp := some (.val v) } ∧
    u.toNat % 2 ^ (8 * ew w) = v.toNat % 2 ^ (8 * ew w) ∧
    (u ≠ v ↔ (w = .byte ∨ w = .wyde ∨ w = .tetra) ∧ u.getLsbD (8 * ew w - 1) = true)

/-! ### Histories -/

/-- Consistency of memory: after any sequence of commands that a port of any width can carry, every one has been answered, and each
byte is the one the most recent command that wrote its address left, or what stood there before (R49). The sequence holds no hard
reset, of which `HardResetGivesPowerOn` speaks. -/
def Obligations.ByteIsLatestWritten : Prop :=
  ∀ (vw : Nat) (h : List Instr) (s : State), (∀ i ∈ h, i.wellFormed vw = true) →
    ∃ (rs : List (Option Response)) (t : State),
    runEvents (eventsOf h) s = .next (rs, t) ∧ rs.length = h.length ∧ none ∉ rs ∧
    ∀ a : Addr, t.byteAt a = latest h (writesByte a) (s.byteAt a)

/-- After any sequence of commands that a port of any width can carry, `USED` holds exactly the addresses written since power-on or
the last CLEAR, whichever is later (R20, R84). The sequence holds no hard reset. -/
def Obligations.UsedIsWrittenSinceClear : Prop :=
  ∀ (vw : Nat) (h : List Instr) (s : State), (∀ i ∈ h, i.wellFormed vw = true) →
    ∃ (rs : List (Option Response)) (t : State),
    runEvents (eventsOf h) s = .next (rs, t) ∧
    (∀ a : Addr, t.isUsed a ↔ latest h (writesUse a) (decide (a.toNat ∈ s.used)) = true) ∧
    (s.used = [] → ∀ a : Addr, t.isUsed a ↔ latest h (writesUse a) false = true)

/-- Consistency of the registers: after any sequence of commands that a port of any width can carry, each general register, each slot
and the program counter holds what the most recent command that wrote it left, or what it held before (R49). The sequence holds no
hard reset. -/
def Obligations.RegisterIsLatestWritten : Prop :=
  ∀ (vw : Nat) (h : List Instr) (s : State), (∀ i ∈ h, i.wellFormed vw = true) →
    ∃ (rs : List (Option Response)) (t : State),
    runEvents (eventsOf h) s = .next (rs, t) ∧
    (∀ i, t.readReg i = latest h (writesReg i) (s.readReg i)) ∧
    (∀ j, t.readSlot j = latest h (writesSlot j) (s.readSlot j)) ∧
    t.pc = latest h writesPc s.pc

/-! ### Register commands -/

/-- GETREG answers `x[idx]` for `idx <= 255` and raises OutOfRangeIndex above; it changes nothing but the response (R100). -/
def Obligations.GetregAnswersRegister : Prop :=
  (∀ r : Request, r.op = 0x6 → decode r = .ok (.getreg r.idx)) ∧
  ∀ s : State,
    (∀ i : Fin 256, exec (.getreg i) s = .next { s with rsp := some (.val (s.readReg i)) }) ∧
    (∀ idx : Nat, 255 < idx → exec (.getreg idx) s = .next { s with rsp := some (.err .outOfRangeIndex) })

/-- SETREG stores the value's low 64 bits in `x[idx]` and changes nothing else but the response; above 255 it raises
OutOfRangeIndex and changes no register (R101). -/
def Obligations.SetregStoresLow64 : Prop :=
  (∀ r : Request, r.op = 0x7 → decode r = .ok (.setreg r.idx r.wdata)) ∧
  ∀ (v : Nat) (s : State),
    (∀ i : Fin 256, ∃ t : State,
      exec (.setreg i v) s = .next t ∧ t.rsp = some .ack ∧ s.sameStore t ∧ t.sr = s.sr ∧ t.pc = s.pc ∧
      (t.readReg i).toNat = v % 2 ^ 64 ∧ ∀ k, k ≠ i → t.readReg k = s.readReg k) ∧
    (∀ idx : Nat, 255 < idx → exec (.setreg idx v) s = .next { s with rsp := some (.err .outOfRangeIndex) })

/-- GETSPEC answers `s[idx]` for `idx <= 31` and raises OutOfRangeIndex above; it changes nothing but the response (R102). -/
def Obligations.GetspecAnswersSlot : Prop :=
  (∀ r : Request, r.op = 0x8 → decode r = .ok (.getspec r.idx)) ∧
  ∀ s : State,
    (∀ j : Fin 32, exec (.getspec j) s = .next { s with rsp := some (.val (s.readSlot j)) }) ∧
    (∀ idx : Nat, 31 < idx → exec (.getspec idx) s = .next { s with rsp := some (.err .outOfRangeIndex) })

/-- SETSPEC stores the value's low 64 bits in `s[idx]`, any slot and any value alike, and changes nothing else but the response;
above 31 it raises OutOfRangeIndex and changes no slot (R103). -/
def Obligations.SetspecStoresLow64 : Prop :=
  (∀ r : Request, r.op = 0x9 → decode r = .ok (.setspec r.idx r.wdata)) ∧
  ∀ (v : Nat) (s : State),
    (∀ j : Fin 32, ∃ t : State,
      exec (.setspec j v) s = .next t ∧ t.rsp = some .ack ∧ s.sameStore t ∧ t.x = s.x ∧ t.pc = s.pc ∧
      (t.readSlot j).toNat = v % 2 ^ 64 ∧ ∀ k, k ≠ j → t.readSlot k = s.readSlot k) ∧
    (∀ idx : Nat, 31 < idx → exec (.setspec idx v) s = .next { s with rsp := some (.err .outOfRangeIndex) })

/-- `resolveName`: the canonical designators of 0 to 255, the 32 mnemonics byte for byte, and nothing else (R104). That a
non-canonical name is UNKNOWN is the spec's decision D12 (log entry 5); the byte values of the names are ASCII codes, taken from
general knowledge (log entry 11). -/
def Obligations.NamesResolve : Prop :=
  (∀ (n : List Byte) (i : Fin 256), resolveName n = .general i ↔ isDesignator n i) ∧
  (∀ (n : List Byte) (j : Fin 32), resolveName n = .special j ↔ ∃ m, n = mnemonicName m ∧ slotOf m = j) ∧
  (∀ n : List Byte, resolveName n = .unknown ↔ (∀ i, ¬ isDesignator n i) ∧ ∀ m, n ≠ mnemonicName m)

/-- `SLOT_OF` is a bijection from the mnemonics onto the 32 slots, and the mnemonics' spellings differ pairwise (R14, R15). It
holds for every `SLOT_OF` (log entry 1). -/
def Obligations.SlotMapIsBijection : Prop :=
  Function.Bijective slotOf ∧ Function.Injective mnemonicName ∧ Mnemonic.all.length = 32 ∧ ∀ m, m ∈ Mnemonic.all

/-- GETNAME, for a name of any length packed as R72 says: the register a designator names, the slot a mnemonic names, and
UnknownRegister for any other name; it changes nothing but the response (R105). That a non-canonical name is unknown is the spec's
decision D12 (log entry 5); the byte values of the names are ASCII codes, taken from general knowledge (log entry 11). -/
def Obligations.GetnameAnswersNamedRegister : Prop :=
  (∀ r : Request, r.op = 0xA → decode r = .ok (.getname r.idx r.addr)) ∧
  ∀ (s : State) (n : List Byte),
    (∀ i, isDesignator n i →
      exec (.getname n.length (packName n)) s = .next { s with rsp := some (.val (s.readReg i)) }) ∧
    (∀ m, n = mnemonicName m →
      exec (.getname n.length (packName n)) s = .next { s with rsp := some (.val (s.readSlot (slotOf m))) }) ∧
    ((∀ i, ¬ isDesignator n i) → (∀ m, n ≠ mnemonicName m) →
      exec (.getname n.length (packName n)) s = .next { s with rsp := some (.err .unknownRegister) })

/-- The name a GETNAME carries: a name of at most eight bytes is unpacked as it was packed, first character in bits 63:56, and a
longer one is unknown whatever its bytes (R72). -/
def Obligations.NameOperandUnpacks : Prop :=
  (∀ n : List Byte, n.length ≤ 8 → nameBytes n.length (packName n) = n) ∧
  (∀ (len : Nat) (c : Addr) (k : Nat), k < len → len ≤ 8 →
    (nameBytes len c)[k]? = some (c.extractLsb' (56 - 8 * k) 8)) ∧
  (∀ (len : Nat) (c : Addr) (s : State), 8 < len →
    exec (.getname len c) s = .next { s with rsp := some (.err .unknownRegister) })

/-- RESET sets every general register, every slot and the program counter to 0 and leaves memory and `USED`; it is idempotent
(R106). -/
def Obligations.ResetZeroesRegisters : Prop :=
  (∀ r : Request, r.op = 0xB → decode r = .ok .reset) ∧
  ∀ s : State, ∃ t : State,
    exec .reset s = .next t ∧ t.rsp = some .ack ∧ s.sameStore t ∧
    (∀ i, t.readReg i = 0) ∧ (∀ j, t.readSlot j = 0) ∧ t.pc = 0 ∧ exec .reset t = .next t

/-- GETPC answers the program counter and changes nothing but the response (R107). -/
def Obligations.GetpcAnswersPc : Prop :=
  (∀ r : Request, r.op = 0xC → decode r = .ok .getpc) ∧
  ∀ s : State, exec .getpc s = .next { s with rsp := some (.val s.pc) }

/-- SETPC stores the value's low 64 bits in the program counter, aligned or not, and changes nothing else but the response; no
GETPC after it gives anything else (R108; the reduction is the spec's decision D14, log entry 5). -/
def Obligations.SetpcStoresLow64 : Prop :=
  (∀ r : Request, r.op = 0xD → decode r = .ok (.setpc r.wdata)) ∧
  ∀ (v : Nat) (s : State), ∃ t : State,
    exec (.setpc v) s = .next t ∧ t.rsp = some .ack ∧ s.sameStore t ∧ t.x = s.x ∧ t.sr = s.sr ∧ t.pc.toNat = v % 2 ^ 64 ∧
    exec .getpc t = .next { t with rsp := some (.val t.pc) }

/-! ### Formatting helpers -/

/-- FMTHEX answers the upper-case hexadecimal numeral of the value's low 64 bits, left-padded with zeros to `digits` characters
and never cut, and changes nothing but the response (R120). The numeral of 0 and the reduction to 64 bits are the spec's decision
D18 (log entry 5); the character codes are ASCII, taken from general knowledge (log entry 11). -/
def Obligations.FmthexRendersHexadecimal : Prop :=
  (∀ r : Request, r.op = 0xE → decode r = .ok (.fmthex r.idx r.wdata)) ∧
  ∀ (digits v : Nat) (s : State), ∃ ds : List Nat, isNumeral 16 (v % 2 ^ 64) ds ∧ ds.length ≤ 16 ∧
    exec (.fmthex digits v) s =
      .next { s with rsp := some (.str (List.replicate (digits - ds.length) 0x30 ++ ds.map asciiDigit)) }

/-- FMTSGN answers the decimal numeral of the two's-complement reading of the value's low 64 bits, with a leading `-` exactly
when bit 63 is set, and changes nothing but the response (R121). The numeral of 0 and the reduction to 64 bits are the spec's
decision D18 (log entry 5); the character codes are ASCII, taken from general knowledge (log entry 11). -/
def Obligations.FmtsgnRendersSignedDecimal : Prop :=
  (∀ r : Request, r.op = 0xF → decode r = .ok (.fmtsgn r.wdata)) ∧
  ∀ (v : Nat) (s : State), ∃ ds : List Nat, isNumeral 10 (BitVec.ofNat 64 v).toInt.natAbs ds ∧
    exec (.fmtsgn v) s =
      .next { s with rsp := some (.str ((if (BitVec.ofNat 64 v).toInt < 0 then [0x2D#8] else []) ++ ds.map asciiDigit)) }

/-- The helpers are pure: each answers the same in every state, whatever the bits of the value above 63, and changes nothing but
the response (R122). -/
def Obligations.HelpersArePure : Prop :=
  (∀ (digits : Nat) (v : Word), ∃ r : Response, ∀ (v' : Nat) (s : State), BitVec.ofNat 64 v' = v →
    exec (.fmthex digits v') s = .next { s with rsp := some r }) ∧
  (∀ v : Word, ∃ r : Response, ∀ (v' : Nat) (s : State), BitVec.ofNat 64 v' = v →
    exec (.fmtsgn v') s = .next { s with rsp := some r })

/-! ### Errors -/

/-- An error leaves the whole state exactly as it was, whichever command failed (R134). -/
def Obligations.ErrorLeavesStateUnchanged : Prop :=
  ∀ (i : Instr) (s t : State) (e : ErrorKind),
    exec i s = .next t → t.rsp = some (.err e) → t = { s with rsp := some (.err e) }

/-- Which command raises which error, and when: nothing else raises one (R130 to R133). -/
def Obligations.ErrorsHaveExactCauses : Prop :=
  ∀ (i : Instr) (s : State), ∃ t : State, exec i s = .next t ∧
    (t.rsp = some (.err .outOfRangeIndex) ↔
      (∃ idx, 255 < idx ∧ (i = .getreg idx ∨ ∃ v, i = .setreg idx v)) ∨
      (∃ idx, 31 < idx ∧ (i = .getspec idx ∨ ∃ v, i = .setspec idx v))) ∧
    (t.rsp = some (.err .unknownRegister) ↔
      ∃ len c, i = .getname len c ∧ (8 < len ∨ resolveName (nameBytes len c) = .unknown))

/-- An error is not sticky: a command performed after a failing one does what it would have done without it (R136). -/
def Obligations.ErrorsAreNotSticky : Prop :=
  ∀ (i j : Instr) (s t : State) (e : ErrorKind), exec i s = .next t → t.rsp = some (.err e) → exec j t = exec j s

/-- The response lines R70 and R71 give: the kind of every response, the payload lines each kind has (`rsp.data` 0 where the payload
is "none", nothing but the code on an error), no kind above 5, and which kinds each command returns; a USED sequence is strictly
ascending. What the other lines hold is not the spec's: see `LinesWithoutPayload`. -/
def Obligations.ResponseLinesCarryCodes : Prop :=
  Response.ack.kind = 0 ∧ Response.ack.data = 0 ∧
  (∀ v, (Response.val v).kind = 1 ∧ (Response.val v).data = v) ∧
  (∀ b, (Response.byte b).kind = 2 ∧ (Response.byte b).data.toNat = b.toNat) ∧
  (∀ as, (Response.addrs as).kind = 3 ∧ (Response.addrs as).seq = as.map BitVec.toNat) ∧
  (∀ cs, (Response.str cs).kind = 4 ∧ (Response.str cs).seq = cs.map BitVec.toNat) ∧
  (Response.err .outOfRangeIndex).kind = 5 ∧ (Response.err .outOfRangeIndex).data = 1 ∧
  (Response.err .unknownRegister).kind = 5 ∧ (Response.err .unknownRegister).data = 2 ∧
  (∀ e, (Response.err e).seq = []) ∧ (∀ r : Response, r.kind.toNat ≤ 5) ∧
  ∀ (i : Instr) (s : State), ∃ (t : State) (r : Response), exec i s = .next t ∧ t.rsp = some r ∧
    match i with
    | .write .. | .writeb .. | .clear | .reset | .setpc .. => r.kind = 0
    | .read .. | .getpc => r.kind = 1
    | .readb .. => r.kind = 2
    | .used => r.kind = 3 ∧ (s.Inv → r.seq.Pairwise (· < ·))
    | .fmthex .. | .fmtsgn .. => r.kind = 4
    | .getreg .. | .getspec .. | .getname .. => r.kind = 1 ∨ r.kind = 5
    | .setreg .. | .setspec .. => r.kind = 0 ∨ r.kind = 5

/-! ### Whole-machine rules -/

/-- Every command answers exactly one response, of the kind R70 gives it, or an error where it can fail; what the requester still
has to send stands. -/
def Obligations.EveryCommandAnswersItsKind : Prop :=
  ∀ (i : Instr) (s : State), ∃ (t : State) (r : Response),
    exec i s = .next t ∧ t.rsp = some r ∧ t.port = s.port ∧
    match i with
    | .write .. | .writeb .. | .clear | .reset | .setpc .. => r = .ack
    | .read .. | .getpc => ∃ v, r = .val v
    | .readb .. => ∃ b, r = .byte b
    | .used => ∃ as, r = .addrs as
    | .fmthex .. | .fmtsgn .. => ∃ cs, r = .str cs
    | .getreg .. | .getspec .. | .getname .. => (∃ v, r = .val v) ∨ ∃ e, r = .err e
    | .setreg .. | .setspec .. => r = .ack ∨ ∃ e, r = .err e

/-- The frame of the commands that write no state: READ, READB, USED, GETREG, GETSPEC, GETNAME, GETPC, FMTHEX and FMTSGN change
nothing but the response, every byte of memory included (R60). -/
def Obligations.ReadingCommandsChangeNothing : Prop :=
  ∀ (i : Instr) (s : State),
    (match i with
      | .read .. | .readb .. | .used | .getreg .. | .getspec .. | .getname .. | .getpc | .fmthex .. | .fmtsgn .. => True
      | .write .. | .writeb .. | .clear | .setreg .. | .setspec .. | .reset | .setpc .. => False) →
    ∃ r : Response, exec i s = .next { s with rsp := some r } ∧ ∀ t, exec i s = .next t → ∀ a : Addr, t.byteAt a = s.byteAt a

/-- Only SETPC, RESET and hard reset change the program counter (R18). -/
def Obligations.OnlySetpcAndResetsChangePc : Prop :=
  ∀ s t : State, step s = .next t → t.pc ≠ s.pc → s.resets ∨ s.performs .reset ∨ ∃ v, s.performs (.setpc v)

/-- Only SETREG of that index, RESET and hard reset change a general register, and only SETSPEC of that index, RESET and hard
reset a slot (R11, R13). -/
def Obligations.OnlyRegisterWritesChangeRegisters : Prop :=
  ∀ s t : State, step s = .next t →
    (∀ i : Fin 256, t.readReg i ≠ s.readReg i → s.resets ∨ s.performs .reset ∨ ∃ v, s.performs (.setreg i v)) ∧
    (∀ j : Fin 32, t.readSlot j ≠ s.readSlot j → s.resets ∨ s.performs .reset ∨ ∃ v, s.performs (.setspec j v))

/-- Only a WRITE that covers the address, a WRITEB of it, CLEAR and hard reset change a byte or put its address into `USED` or
take it out; only CLEAR and hard reset take one out (R20). -/
def Obligations.OnlyStoresChangeMemory : Prop :=
  ∀ (s t : State) (a : Addr), step s = .next t →
    ((t.byteAt a ≠ s.byteAt a ∨ ¬ (t.isUsed a ↔ s.isUsed a)) →
      s.resets ∨ s.performs .clear ∨ (∃ v, s.performs (.writeb a v)) ∨ ∃ w b v, s.performs (.write w b v) ∧ covers w b a) ∧
    (s.isUsed a → ¬ t.isUsed a → s.resets ∨ s.performs .clear)

/-- No other command's response or effect depends on `USED`: with another used set a command other than USED answers the same and
leaves the same memory, registers, slots and program counter (R84). -/
def Obligations.UsedSetInfluencesOnlyUsed : Prop :=
  ∀ (i : Instr) (s : State) (l : List Nat), i ≠ .used → ∃ t u : State,
    exec i s = .next t ∧ exec i { s with used := l } = .next u ∧
    u.rsp = t.rsp ∧ u.mem = t.mem ∧ u.x = t.x ∧ u.sr = t.sr ∧ u.pc = t.pc

/-- RESET and CLEAR in either order bring the whole state to the power-on state (R152), and the pseudo-command FULLRESET does
(R77). -/
def Obligations.FullResetGivesPowerOn : Prop :=
  ∀ s : State, ∃ t u t' u' : State,
    exec .reset s = .next t ∧ exec .clear t = .next u ∧ State.reset.sameArch u ∧
    exec .clear s = .next t' ∧ exec .reset t' = .next u' ∧ State.reset.sameArch u' ∧
    Pseudo.perform .fullreset s = .next u

/-- Several blocks share nothing: a step of one leaves every other as it was and is that block's own step (R24). -/
def Obligations.BlocksShareNothing : Prop :=
  ∀ (bs : List State) (k : Nat) (s : State), bs[k]? = some s →
    (∀ t, step s = .next t → ∃ bs', stepBlock k bs = some (.next bs') ∧ bs'[k]? = some t ∧ bs'.length = bs.length ∧
      ∀ j, j ≠ k → bs'[j]? = bs[j]?)

/-! ### The requester's side -/

/-- The functional form's two ways to ask for high tetra are one access width, and a width without the flag is that width; the flag
with BYTE, WYDE or OCTA and a width outside the enumeration are refused (R41, R30). -/
def Obligations.FunctionalWidthsNormalise : Prop :=
  ∀ (a : Addr) (sg ht : Bool) (v : Int) (s : State),
    (Call.read a .highTetra sg ht).perform s = exec (.read .highTetra sg a) s ∧
    (Call.read a (.bytes 4) sg true).perform s = exec (.read .highTetra sg a) s ∧
    (Call.write a .highTetra v ht).perform s = exec (.write .highTetra a (presented v)) s ∧
    (Call.write a (.bytes 4) v true).perform s = exec (.write .highTetra a (presented v)) s ∧
    (∀ w : Width, w ≠ .highTetra → (Call.read a (.bytes (ew w)) sg false).perform s = exec (.read w sg a) s ∧
      (Call.write a (.bytes (ew w)) v false).perform s = exec (.write w a (presented v)) s ∧
      (w ≠ .tetra → (Call.read a (.bytes (ew w)) sg true).perform s = .refused (.highTetraWithWidth w) ∧
        (Call.write a (.bytes (ew w)) v true).perform s = .refused (.highTetraWithWidth w))) ∧
    (∀ arg : WidthArg, arg ≠ .highTetra → (∀ w : Width, arg ≠ .bytes (ew w)) →
      (Call.read a arg sg ht).perform s = .refused (.widthOutsideEnumeration arg) ∧
      (Call.write a arg v ht).perform s = .refused (.widthOutsideEnumeration arg))

/-- In the functional form every index that is not an integer in its range raises OutOfRangeIndex and changes nothing, negative ones
and those that are no integer included (R66, R130). -/
def Obligations.FunctionalIndexOutOfRange : Prop :=
  ∀ (i : NumberArg) (v : Int) (s : State),
    ((∀ n : Fin 256, i ≠ .integer n.val) →
      (Call.getReg i).perform s = .next { s with rsp := some (.err .outOfRangeIndex) } ∧
      (Call.setReg i v).perform s = .next { s with rsp := some (.err .outOfRangeIndex) }) ∧
    ((∀ n : Fin 32, i ≠ .integer n.val) →
      (Call.getSpecialReg i).perform s = .next { s with rsp := some (.err .outOfRangeIndex) } ∧
      (Call.setSpecialReg i v).perform s = .next { s with rsp := some (.err .outOfRangeIndex) })

/-- A mathematical integer presented on a value input of any legal width fits it, and its low 64 bits are `v mod 2^64` (R73). -/
def Obligations.PresentedIntegerReducesMod64 : Prop :=
  ∀ (v : Int) (vw : Nat), 64 ≤ vw →
    presented v vw < 2 ^ vw ∧ ((low64 (presented v vw)).toNat : Int) = v % 2 ^ 64 ∧
    ∀ (i : Fin 256) (s : State), ∃ t, (Call.setReg (.integer i.val) v).perform s vw = .next t ∧ ((t.readReg i).toNat : Int) = v % 2 ^ 64

/-- LOAD is a READ whose value SETREG stores, STORE a GETREG whose value WRITE stores; with a bad index LOAD has only read memory
and STORE stops before the WRITE. LOADSPEC and STORESPEC are the same with the slots, and FULLRESET is RESET then CLEAR (R77). -/
def Obligations.LoadAndStoreExpand : Prop :=
  ∀ (w : Width) (sg : Bool) (a : Addr) (s : State),
    (∃ v : Word, exec (.read w sg a) s = .next { s with rsp := some (.val v) } ∧
      (∀ i : Fin 256, ∃ t : State, (Pseudo.load w sg i a).perform s = .next t ∧
        t.readReg i = v ∧ s.sameStore t ∧ t.sr = s.sr ∧ t.pc = s.pc ∧ ∀ k, k ≠ i → t.readReg k = s.readReg k) ∧
      (∀ j : Fin 32, ∃ t : State, (Pseudo.loadspec w sg j a).perform s = .next t ∧
        t.readSlot j = v ∧ s.sameStore t ∧ t.x = s.x ∧ t.pc = s.pc ∧ ∀ k, k ≠ j → t.readSlot k = s.readSlot k)) ∧
    (∀ i : Fin 256, ∃ t : State,
      (Pseudo.store w i a).perform s = .next t ∧ exec (.write w a (s.readReg i).toNat) s = .next t) ∧
    (∀ j : Fin 32, ∃ t : State,
      (Pseudo.storespec w j a).perform s = .next t ∧ exec (.write w a (s.readSlot j).toNat) s = .next t) ∧
    (∀ idx : Nat, 255 < idx →
      (Pseudo.load w sg idx a).perform s = .next { s with rsp := some (.err .outOfRangeIndex) } ∧
      (Pseudo.store w idx a).perform s = .next { s with rsp := some (.err .outOfRangeIndex) }) ∧
    (∀ idx : Nat, 31 < idx →
      (Pseudo.loadspec w sg idx a).perform s = .next { s with rsp := some (.err .outOfRangeIndex) } ∧
      (Pseudo.storespec w idx a).perform s = .next { s with rsp := some (.err .outOfRangeIndex) }) ∧
    ∃ t u : State, exec .reset s = .next t ∧ exec .clear t = .next u ∧ Pseudo.perform .fullreset s = .next u

/-- The response lines a response has no payload on: `rsp.data` is 0 on ADDRS and STR, `rsp.seq` empty on ACK, VAL and BYTE. The spec
gives these lines no value; the values are the model's choice (log entry 18). -/
def Obligations.LinesWithoutPayload : Prop :=
  (∀ as, (Response.addrs as).data = 0) ∧ (∀ cs, (Response.str cs).data = 0) ∧
  Response.ack.seq = [] ∧ (∀ v, (Response.val v).seq = []) ∧ ∀ b, (Response.byte b).seq = []
end

