-- ==== Sys2Proof/Laws/Decode.lean ====
section
/-! SUPPORT. What the decoder reads from a command word the encoder builds. -/

namespace Sys2Proof

@[simp] theorem indexFits_iff (idx : Nat) : indexFits idx = true ↔ idx < 2 ^ 16 := decide_eq_true_iff

@[simp] theorem valueFits_iff (vw v : Nat) : valueFits vw v = true ↔ v < 2 ^ vw := decide_eq_true_iff

theorem commandWord_toNat (op : BitVec 4) (wsel : BitVec 3) (sg : Bool) (idx : Nat) :
    (commandWord op wsel sg idx).toNat =
      op.toNat * 2 ^ 28 + wsel.toNat * 2 ^ 25 + sg.toNat * 2 ^ 24 + idx % 2 ^ 16 := by
  simp only [commandWord, BitVec.toNat_append, BitVec.toNat_ofBool, BitVec.toNat_ofNat]
  have h1 : sg.toNat < 2 := Bool.toNat_lt sg
  have h2 := wsel.isLt
  have h3 : idx % 2 ^ 16 < 2 ^ 16 := Nat.mod_lt _ (by decide)
  rw [← Nat.shiftLeft_add_eq_or_of_lt h3, ← Nat.shiftLeft_add_eq_or_of_lt (by decide),
    ← Nat.shiftLeft_add_eq_or_of_lt (by simpa using h1), ← Nat.shiftLeft_add_eq_or_of_lt h2]
  simp only [Nat.shiftLeft_eq]
  omega

variable (op : BitVec 4) (wsel : BitVec 3) (sg : Bool) (idx : Nat) (a : Addr) (v : Nat)

@[simp] theorem op_commandWord : (Request.mk (commandWord op wsel sg idx) a v).op = op := by
  apply BitVec.eq_of_toNat_eq
  have h1 : sg.toNat < 2 := Bool.toNat_lt sg
  have h2 := wsel.isLt
  have h3 := op.isLt
  have h4 : idx % 2 ^ 16 < 2 ^ 16 := Nat.mod_lt _ (by decide)
  simp only [Request.op, BitVec.extractLsb'_toNat, commandWord_toNat, Nat.shiftRight_eq_div_pow]
  omega

@[simp] theorem wsel_commandWord : (Request.mk (commandWord op wsel sg idx) a v).wsel = wsel := by
  apply BitVec.eq_of_toNat_eq
  have h1 : sg.toNat < 2 := Bool.toNat_lt sg
  have h2 := wsel.isLt
  have h4 : idx % 2 ^ 16 < 2 ^ 16 := Nat.mod_lt _ (by decide)
  simp only [Request.wsel, BitVec.extractLsb'_toNat, commandWord_toNat, Nat.shiftRight_eq_div_pow]
  omega

@[simp] theorem sg_commandWord : (Request.mk (commandWord op wsel sg idx) a v).sg = sg := by
  have h4 : idx % 2 ^ 16 < 2 ^ 16 := Nat.mod_lt _ (by decide)
  simp only [Request.sg, BitVec.getLsbD, commandWord_toNat, Nat.testBit_eq_decide_div_mod_eq]
  cases sg <;> simp only [Bool.toNat_false, Bool.toNat_true, decide_eq_false_iff_not, decide_eq_true_eq] <;> omega

@[simp] theorem idx_commandWord : (Request.mk (commandWord op wsel sg idx) a v).idx = idx % 2 ^ 16 := by
  have h4 : idx % 2 ^ 16 < 2 ^ 16 := Nat.mod_lt _ (by decide)
  simp only [Request.idx, BitVec.extractLsb'_toNat, commandWord_toNat, Nat.shiftRight_zero]
  omega

/-! ### One row of the opcode table at a time (R63, R67) -/

/-- All sixteen operation codes are assigned (R63). -/
theorem op_cases (o : BitVec 4) :
    o = 0x0 ∨ o = 0x1 ∨ o = 0x2 ∨ o = 0x3 ∨ o = 0x4 ∨ o = 0x5 ∨ o = 0x6 ∨ o = 0x7 ∨
    o = 0x8 ∨ o = 0x9 ∨ o = 0xA ∨ o = 0xB ∨ o = 0xC ∨ o = 0xD ∨ o = 0xE ∨ o = 0xF := by
  revert o; decide

section rows

variable {r : Request}

theorem decode_read (h : r.op = 0x0) :
    decode r = match widthOfSel r.wsel with
      | some w => .ok (.read w r.sg r.addr)
      | none => .error (.readWidth r.wsel) := by unfold decode; rw [h]; rfl
theorem decode_write (h : r.op = 0x1) :
    decode r = match widthOfSel r.wsel with
      | some w => .ok (.write w r.addr r.wdata)
      | none => .error (.writeWidth r.wsel) := by unfold decode; rw [h]; rfl
theorem decode_readb (h : r.op = 0x2) : decode r = .ok (.readb r.addr) := by unfold decode; rw [h]; rfl
theorem decode_writeb (h : r.op = 0x3) : decode r = .ok (.writeb r.addr r.wdata) := by unfold decode; rw [h]; rfl
theorem decode_used (h : r.op = 0x4) : decode r = .ok .used := by unfold decode; rw [h]; rfl
theorem decode_clear (h : r.op = 0x5) : decode r = .ok .clear := by unfold decode; rw [h]; rfl
theorem decode_getreg (h : r.op = 0x6) : decode r = .ok (.getreg r.idx) := by unfold decode; rw [h]; rfl
theorem decode_setreg (h : r.op = 0x7) : decode r = .ok (.setreg r.idx r.wdata) := by unfold decode; rw [h]; rfl
theorem decode_getspec (h : r.op = 0x8) : decode r = .ok (.getspec r.idx) := by unfold decode; rw [h]; rfl
theorem decode_setspec (h : r.op = 0x9) : decode r = .ok (.setspec r.idx r.wdata) := by unfold decode; rw [h]; rfl
theorem decode_getname (h : r.op = 0xA) : decode r = .ok (.getname r.idx r.addr) := by unfold decode; rw [h]; rfl
theorem decode_reset (h : r.op = 0xB) : decode r = .ok .reset := by unfold decode; rw [h]; rfl
theorem decode_getpc (h : r.op = 0xC) : decode r = .ok .getpc := by unfold decode; rw [h]; rfl
theorem decode_setpc (h : r.op = 0xD) : decode r = .ok (.setpc r.wdata) := by unfold decode; rw [h]; rfl
theorem decode_fmthex (h : r.op = 0xE) : decode r = .ok (.fmthex r.idx r.wdata) := by unfold decode; rw [h]; rfl
theorem decode_fmtsgn (h : r.op = 0xF) : decode r = .ok (.fmtsgn r.wdata) := by unfold decode; rw [h]; rfl

end rows

@[simp] theorem widthOfSel_selOfWidth (w : Width) : widthOfSel (selOfWidth w) = some w := by cases w <;> rfl

/-- A selector names a width exactly when it is below 5 (R64, R69). -/
theorem widthOfSel_eq_none (wsel : BitVec 3) : widthOfSel wsel = none ↔ 5 ≤ wsel.toNat := by
  revert wsel; decide

end Sys2Proof
end

