-- ==== Sys2Proof/Laws/State.lean ====
section
/-! SUPPORT. What each update of the state does to each field, so that no later proof unfolds a record update. -/

namespace Sys2Proof.Machine

namespace State

variable (s : State) (a : Nat) (b : Byte) (bs : List Byte) (i : Fin 256) (j : Fin 32) (v : Word)

/-! ### One byte stored -/

@[simp] theorem storeByte_mem : (s.storeByte a b).mem = s.mem.write a b := rfl
@[simp] theorem storeByte_used : (s.storeByte a b).used = insertAddr a s.used := rfl
@[simp] theorem storeByte_x : (s.storeByte a b).x = s.x := rfl
@[simp] theorem storeByte_sr : (s.storeByte a b).sr = s.sr := rfl
@[simp] theorem storeByte_pc : (s.storeByte a b).pc = s.pc := rfl
@[simp] theorem storeByte_port : (s.storeByte a b).port = s.port := rfl
@[simp] theorem storeByte_rsp : (s.storeByte a b).rsp = s.rsp := rfl

/-! ### Several bytes stored -/

@[simp] theorem storeBytes_nil : s.storeBytes a [] = s := rfl
@[simp] theorem storeBytes_cons : s.storeBytes a (b :: bs) = (s.storeByte a b).storeBytes (a + 1) bs := rfl

@[simp] theorem storeBytes_x : (s.storeBytes a bs).x = s.x := by
  induction bs generalizing s a with
  | nil => rfl
  | cons b bs ih => simp [ih]

@[simp] theorem storeBytes_sr : (s.storeBytes a bs).sr = s.sr := by
  induction bs generalizing s a with
  | nil => rfl
  | cons b bs ih => simp [ih]

@[simp] theorem storeBytes_pc : (s.storeBytes a bs).pc = s.pc := by
  induction bs generalizing s a with
  | nil => rfl
  | cons b bs ih => simp [ih]

@[simp] theorem storeBytes_port : (s.storeBytes a bs).port = s.port := by
  induction bs generalizing s a with
  | nil => rfl
  | cons b bs ih => simp [ih]

@[simp] theorem storeBytes_rsp : (s.storeBytes a bs).rsp = s.rsp := by
  induction bs generalizing s a with
  | nil => rfl
  | cons b bs ih => simp [ih]

/-! ### The store cleared -/

@[simp] theorem clearStore_mem : s.clearStore.mem = [] := rfl
@[simp] theorem clearStore_used : s.clearStore.used = [] := rfl
@[simp] theorem clearStore_x : s.clearStore.x = s.x := rfl
@[simp] theorem clearStore_sr : s.clearStore.sr = s.sr := rfl
@[simp] theorem clearStore_pc : s.clearStore.pc = s.pc := rfl
@[simp] theorem clearStore_port : s.clearStore.port = s.port := rfl
@[simp] theorem clearStore_rsp : s.clearStore.rsp = s.rsp := rfl

/-! ### A general register written -/

@[simp] theorem writeReg_mem : (s.writeReg i v).mem = s.mem := rfl
@[simp] theorem writeReg_used : (s.writeReg i v).used = s.used := rfl
@[simp] theorem writeReg_x : (s.writeReg i v).x = s.x.set i v := rfl
@[simp] theorem writeReg_sr : (s.writeReg i v).sr = s.sr := rfl
@[simp] theorem writeReg_pc : (s.writeReg i v).pc = s.pc := rfl
@[simp] theorem writeReg_port : (s.writeReg i v).port = s.port := rfl
@[simp] theorem writeReg_rsp : (s.writeReg i v).rsp = s.rsp := rfl

@[simp] theorem readReg_writeReg (k : Fin 256) : (s.writeReg i v).readReg k = if k = i then v else s.readReg k := by
  simp only [readReg, writeReg, Fin.getElem_fin, Vector.getElem_set, Fin.ext_iff]
  grind

/-! ### A slot written -/

@[simp] theorem writeSlot_mem : (s.writeSlot j v).mem = s.mem := rfl
@[simp] theorem writeSlot_used : (s.writeSlot j v).used = s.used := rfl
@[simp] theorem writeSlot_x : (s.writeSlot j v).x = s.x := rfl
@[simp] theorem writeSlot_sr : (s.writeSlot j v).sr = s.sr.set j v := rfl
@[simp] theorem writeSlot_pc : (s.writeSlot j v).pc = s.pc := rfl
@[simp] theorem writeSlot_port : (s.writeSlot j v).port = s.port := rfl
@[simp] theorem writeSlot_rsp : (s.writeSlot j v).rsp = s.rsp := rfl

@[simp] theorem readSlot_writeSlot (k : Fin 32) : (s.writeSlot j v).readSlot k = if k = j then v else s.readSlot k := by
  simp only [readSlot, writeSlot, Fin.getElem_fin, Vector.getElem_set, Fin.ext_iff]
  grind

/-! ### The program counter written -/

@[simp] theorem writePc_mem : (s.writePc v).mem = s.mem := rfl
@[simp] theorem writePc_used : (s.writePc v).used = s.used := rfl
@[simp] theorem writePc_x : (s.writePc v).x = s.x := rfl
@[simp] theorem writePc_sr : (s.writePc v).sr = s.sr := rfl
@[simp] theorem writePc_pc : (s.writePc v).pc = v := rfl
@[simp] theorem writePc_port : (s.writePc v).port = s.port := rfl
@[simp] theorem writePc_rsp : (s.writePc v).rsp = s.rsp := rfl

/-! ### The registers zeroed -/

@[simp] theorem zeroRegisters_mem : s.zeroRegisters.mem = s.mem := rfl
@[simp] theorem zeroRegisters_used : s.zeroRegisters.used = s.used := rfl
@[simp] theorem zeroRegisters_pc : s.zeroRegisters.pc = 0 := rfl
@[simp] theorem zeroRegisters_port : s.zeroRegisters.port = s.port := rfl
@[simp] theorem zeroRegisters_rsp : s.zeroRegisters.rsp = s.rsp := rfl

@[simp] theorem readReg_zeroRegisters : s.zeroRegisters.readReg i = 0 := by simp [readReg, zeroRegisters]
@[simp] theorem readSlot_zeroRegisters : s.zeroRegisters.readSlot j = 0 := by simp [readSlot, zeroRegisters]

/-! ### Power-on and hard reset -/

@[simp] theorem reset_mem : State.reset.mem = [] := rfl
@[simp] theorem reset_used : State.reset.used = [] := rfl
@[simp] theorem reset_pc : State.reset.pc = 0 := rfl
@[simp] theorem reset_port : State.reset.port = [] := rfl
@[simp] theorem reset_rsp : State.reset.rsp = none := rfl
@[simp] theorem readReg_reset : State.reset.readReg i = 0 := by simp [readReg, State.reset]
@[simp] theorem readSlot_reset : State.reset.readSlot j = 0 := by simp [readSlot, State.reset]

@[simp] theorem hardReset_mem : s.hardReset.mem = [] := rfl
@[simp] theorem hardReset_used : s.hardReset.used = [] := rfl
@[simp] theorem hardReset_x : s.hardReset.x = State.reset.x := rfl
@[simp] theorem hardReset_sr : s.hardReset.sr = State.reset.sr := rfl
@[simp] theorem hardReset_pc : s.hardReset.pc = 0 := rfl
@[simp] theorem hardReset_port : s.hardReset.port = s.port := rfl
@[simp] theorem hardReset_rsp : s.hardReset.rsp = none := rfl

/-! ### The port filled -/

@[simp] theorem withPort_mem (es : List PortEvent) : (s.withPort es).mem = s.mem := rfl
@[simp] theorem withPort_used (es : List PortEvent) : (s.withPort es).used = s.used := rfl
@[simp] theorem withPort_x (es : List PortEvent) : (s.withPort es).x = s.x := rfl
@[simp] theorem withPort_sr (es : List PortEvent) : (s.withPort es).sr = s.sr := rfl
@[simp] theorem withPort_pc (es : List PortEvent) : (s.withPort es).pc = s.pc := rfl
@[simp] theorem withPort_port (es : List PortEvent) : (s.withPort es).port = es := rfl
@[simp] theorem withPort_rsp (es : List PortEvent) : (s.withPort es).rsp = s.rsp := rfl
@[simp] theorem present_port (r : Request) : (s.present r).port = .command r :: s.port := rfl

end State

end Sys2Proof.Machine
end

