-- ==== Sys2Proof/Laws/Memory.lean ====
section
/-! SUPPORT. Memory and the used set: read after write, and that every operation keeps the canonical form. -/

namespace Sys2Proof.Machine

namespace Memory

@[simp] theorem read_nil (a : Nat) : Memory.read [] a = 0 := rfl

theorem read_cons (c : Host.Cell) (m : Memory) (a : Nat) :
    Memory.read (c :: m) a = if c.1 = a then c.2 else Memory.read m a := rfl

theorem read_put (m : Memory) (a k : Nat) (b : Byte) :
    Memory.read (Memory.put a b m) k = if k = a then b else Memory.read m k := by
  induction m with
  | nil => simp [Memory.put, read_cons, eq_comm]
  | cons c m ih => grind [Memory.put, Memory.read]

theorem read_erase (m : Memory) (a k : Nat) :
    Memory.read (m.filter (fun c => c.1 ≠ a)) k = if k = a then 0 else Memory.read m k := by
  induction m with
  | nil => simp
  | cons c m ih => grind [Memory.read]

/-- Read after write: the written address gives the byte, every other address what it gave. -/
@[simp] theorem read_write (m : Memory) (a k : Nat) (b : Byte) :
    (Memory.write m a b).read k = if k = a then b else m.read k := by
  unfold Memory.write
  split
  · rename_i h
    rw [read_erase, h]
  · exact read_put m a k b

theorem mem_put {m : Memory} {a : Nat} {b : Byte} {c : Host.Cell} (h : c ∈ Memory.put a b m) : c = (a, b) ∨ c ∈ m := by
  induction m with
  | nil => simpa [Memory.put] using h
  | cons d m ih => grind [Memory.put]

/-- A cell listed after a write is the written one or was listed before. -/
theorem mem_write {m : Memory} {a : Nat} {b : Byte} {c : Host.Cell} (h : c ∈ Memory.write m a b) :
    c = (a, b) ∨ c ∈ m := by
  unfold Memory.write at h
  split at h
  · exact .inr (List.mem_of_mem_filter h)
  · exact mem_put h

theorem put_sorted {m : Memory} (a : Nat) (b : Byte) (h : m.Pairwise (fun c d => c.1 < d.1)) :
    (Memory.put a b m).Pairwise (fun c d => c.1 < d.1) := by
  induction m with
  | nil => simp [Memory.put]
  | cons c m ih =>
    rw [List.pairwise_cons] at h
    have ih := ih h.2
    simp only [Memory.put]
    split
    · grind [List.pairwise_cons]
    · split
      · grind [List.pairwise_cons]
      · refine List.pairwise_cons.2 ⟨fun d hd => ?_, ih⟩
        rcases mem_put hd with rfl | hd
        · omega
        · exact h.1 d hd

@[simp] theorem wf_nil : Memory.wf [] := ⟨List.Pairwise.nil, fun _ h => nomatch h⟩

/-- A write below 2^64 keeps the canonical form. -/
theorem wf_write {m : Memory} (h : Memory.wf m) (a : Nat) (ha : a < 2 ^ 64) (b : Byte) : (Memory.write m a b).wf := by
  refine ⟨?_, fun c hc => ?_⟩
  · unfold Memory.write
    split
    · exact h.1.filter _
    · exact put_sorted a b h.1
  · unfold Memory.write at hc
    split at hc
    · exact h.2 c (List.mem_of_mem_filter hc)
    · rename_i hb
      rcases mem_put hc with rfl | hc
      · exact ⟨ha, hb⟩
      · exact h.2 c hc

/-- A byte that is not 0 is listed. -/
theorem mem_of_read_ne {m : Memory} {a : Nat} (h : m.read a ≠ 0) : (a, m.read a) ∈ m := by
  induction m with
  | nil => simp at h
  | cons c m ih => grind [Memory.read]

end Memory

/-! ### The used set -/

@[simp] theorem mem_insertAddr (a k : Nat) (l : List Nat) : k ∈ insertAddr a l ↔ k = a ∨ k ∈ l := by
  induction l with
  | nil => simp [insertAddr]
  | cons c l ih => grind [insertAddr]

/-- Adding a 64-bit address keeps the used set ascending and without repeats. -/
theorem usedOk_insertAddr {l : List Nat} (h : usedOk l) (a : Nat) (ha : a < 2 ^ 64) : usedOk (insertAddr a l) := by
  refine ⟨?_, fun k hk => ?_⟩
  · obtain ⟨h, -⟩ := h
    induction l with
    | nil => simp [insertAddr]
    | cons c l ih =>
      rw [List.pairwise_cons] at h
      have ih := ih h.2
      simp only [insertAddr]
      split
      · grind [List.pairwise_cons]
      · split
        · exact List.pairwise_cons.2 h
        · refine List.pairwise_cons.2 ⟨fun d hd => ?_, ih⟩
          rcases (mem_insertAddr ..).1 hd with rfl | hd
          · omega
          · exact h.1 d hd
  · rcases (mem_insertAddr ..).1 hk with rfl | hk
    · exact ha
    · exact h.2 k hk

/-! ### Several bytes stored -/

/-- A byte after a multi-byte store: the stored byte inside the stored range, what it was outside. -/
theorem storeBytes_read (s : State) (a k : Nat) (bs : List Byte) :
    (s.storeBytes a bs).mem.read k = if a ≤ k ∧ k < a + bs.length then bs.getD (k - a) 0 else s.mem.read k := by
  induction bs generalizing s a with
  | nil => simp
  | cons b bs ih =>
    rw [State.storeBytes_cons, ih, State.storeByte_mem, Memory.read_write]
    rcases Nat.lt_trichotomy k a with h | rfl | h
    · grind
    · simp
    · have : k - a = (k - (a + 1)) + 1 := by omega
      grind

/-- A multi-byte store adds exactly its addresses to the used set. -/
theorem storeBytes_mem_used (s : State) (a k : Nat) (bs : List Byte) :
    k ∈ (s.storeBytes a bs).used ↔ (a ≤ k ∧ k < a + bs.length) ∨ k ∈ s.used := by
  induction bs generalizing s a with
  | nil => simp
  | cons b bs ih =>
    rw [State.storeBytes_cons, ih, State.storeByte_used, mem_insertAddr, List.length_cons]
    constructor
    · rintro (h | rfl | h)
      · left; omega
      · left; omega
      · exact .inr h
    · rintro (h | h)
      · by_cases hk : k = a
        · exact .inr (.inl hk)
        · left; omega
      · exact .inr (.inr h)

/-- Storing one byte keeps the invariant. -/
theorem storeByte_inv {s : State} (h : s.Inv) (a : Nat) (ha : a < 2 ^ 64) (b : Byte) : (s.storeByte a b).Inv := by
  refine ⟨Memory.wf_write h.1 a ha b, usedOk_insertAddr h.2.1 a ha, fun c hc => ?_⟩
  rw [State.storeByte_used, mem_insertAddr]
  rcases Memory.mem_write hc with rfl | hc
  · exact .inl rfl
  · exact .inr (h.2.2 c hc)

/-- Storing bytes that end below 2^64 keeps the invariant. -/
theorem storeBytes_inv {s : State} (h : s.Inv) (a : Nat) (bs : List Byte) (ha : a + bs.length ≤ 2 ^ 64) :
    (s.storeBytes a bs).Inv := by
  induction bs generalizing s a with
  | nil => exact h
  | cons b bs ih =>
    rw [List.length_cons] at ha
    exact ih (storeByte_inv h a (by omega) b) (a + 1) (by omega)

/-- The cleared store satisfies the invariant. -/
theorem clearStore_inv (s : State) : s.clearStore.Inv := by
  refine ⟨Memory.wf_nil, ⟨List.Pairwise.nil, fun a h => ?_⟩, fun c h => ?_⟩ <;> cases h

end Sys2Proof.Machine
end

