-- ==== Sys2Proof/Laws/Operands.lean ====
section
/-! SUPPORT. The translator, the operand slices and the numerals: one lemma for what each says. -/

namespace Sys2Proof.Machine

theorem ew_pos (w : Width) : 0 < ew w := by cases w <;> decide

theorem ew_le (w : Width) : ew w ≤ 8 := by cases w <;> decide

theorem ew_dvd (w : Width) : ew w ∣ 2 ^ 64 := by cases w <;> decide

@[simp] theorem low64_toNat (v : Nat) : (low64 v).toNat = v % 2 ^ 64 := by simp [low64]

@[simp] theorem lowByte_toNat (v : Nat) : (lowByte v).toNat = v % 2 ^ 8 := by simp [lowByte]

/-! ### Alignment -/

/-- Clearing the low `n` bits. -/
theorem and_not_mask_toNat (a : Addr) (n : Nat) :
    (a &&& ~~~(BitVec.ofNat 64 (2 ^ n - 1))).toNat = a.toNat - a.toNat % 2 ^ n := by
  have e : a &&& ~~~(BitVec.ofNat 64 (2 ^ n - 1)) = (a >>> n) <<< n := by
    ext i hi
    simp only [BitVec.getElem_and, BitVec.getElem_not, BitVec.getElem_shiftLeft]
    rw [← BitVec.getLsbD_eq_getElem, ← BitVec.getLsbD_eq_getElem, BitVec.getLsbD_ofNat, Nat.testBit_two_pow_sub_one]
    by_cases hn : i < n
    · simp [hn, hi]
    · simp [hn, hi, Nat.add_sub_cancel' (Nat.le_of_not_lt hn)]
  rw [e, BitVec.toNat_shiftLeft, BitVec.toNat_ushiftRight, Nat.shiftRight_eq_div_pow, Nat.shiftLeft_eq,
    Nat.mod_eq_of_lt]
  · have := Nat.div_add_mod a.toNat (2 ^ n)
    rw [Nat.mul_comm] at this
    omega
  · exact Nat.lt_of_le_of_lt (Nat.div_mul_le_self _ _) a.isLt

/-- The aligned address as a number (R31). -/
theorem alignDown_toNat (a : Addr) (w : Width) : (alignDown a w).toNat = a.toNat - a.toNat % ew w := by
  cases w
  · exact and_not_mask_toNat a 0
  · exact and_not_mask_toNat a 1
  · exact and_not_mask_toNat a 2
  · exact and_not_mask_toNat a 3
  · exact and_not_mask_toNat a 2

theorem alignDown_le (a : Addr) (w : Width) : (alignDown a w).toNat ≤ a.toNat := by
  rw [alignDown_toNat]; omega

theorem alignDown_mod (a : Addr) (w : Width) : (alignDown a w).toNat % ew w = 0 := by
  rw [alignDown_toNat]
  cases w <;> simp only [ew] <;> omega

theorem alignDown_of_mod (a : Addr) (w : Width) (h : a.toNat % ew w = 0) : alignDown a w = a := by
  apply BitVec.eq_of_toNat_eq
  rw [alignDown_toNat, h, Nat.sub_zero]

@[simp] theorem alignDown_alignDown (a : Addr) (w : Width) : alignDown (alignDown a w) w = alignDown a w :=
  alignDown_of_mod _ w (alignDown_mod a w)

/-- No access wraps (R43). -/
theorem alignDown_add_ew_le (a : Addr) (w : Width) : (alignDown a w).toNat + ew w ≤ 2 ^ 64 := by
  have h := alignDown_mod a w
  have := (alignDown a w).isLt
  cases w <;> simp only [ew] at * <;> omega

/-! ### Bytes and values -/

@[simp] theorem split_length (n t : Nat) : (split n t).length = n := by simp [split]

@[simp] theorem valueToBytes_length (w : Width) (v : Nat) : (valueToBytes w v).length = ew w := by
  simp [valueToBytes]

theorem foldl_bytes (bs : List Byte) (u : Nat) :
    bs.foldl (fun u b => u * 256 + b.toNat) u = u * 256 ^ bs.length + combine bs := by
  induction bs generalizing u with
  | nil => simp [combine]
  | cons b bs ih =>
    simp only [combine, List.foldl_cons, List.length_cons]
    rw [ih, ih (0 * 256 + b.toNat)]
    ring

@[simp] theorem combine_nil : combine [] = 0 := rfl

theorem combine_cons (b : Byte) (bs : List Byte) : combine (b :: bs) = b.toNat * 256 ^ bs.length + combine bs := by
  have h := foldl_bytes bs (0 * 256 + b.toNat)
  simp only [Nat.zero_mul, Nat.zero_add] at h
  exact (by simpa [combine] using h)

theorem combine_lt (bs : List Byte) : combine bs < 256 ^ bs.length := by
  induction bs with
  | nil => simp
  | cons b bs ih =>
    rw [combine_cons, List.length_cons, Nat.pow_succ]
    have := b.isLt
    have : b.toNat * 256 ^ bs.length ≤ 255 * 256 ^ bs.length := Nat.mul_le_mul_right _ (by omega)
    omega

/-- Combining the bytes of a split gives the low `8n` bits back (R33, R34, R38). -/
theorem combine_split (n t : Nat) : combine (split n t) = t % 256 ^ n := by
  induction n generalizing t with
  | zero => simp [split, Nat.mod_one]
  | succ n ih =>
    have hs : split (n + 1) t = BitVec.ofNat 8 (t >>> (8 * n)) :: split n t := by
      simp only [split, List.range_succ_eq_map, List.map_cons, List.map_map]
      congr 1
      refine List.map_congr_left fun k _ => ?_
      simp only [Function.comp]
      congr 3
      omega
    have h8 : (2 : Nat) ^ (8 * n) = 256 ^ n := by rw [Nat.pow_mul]
    calc combine (split (n + 1) t)
        = t / 256 ^ n % 256 * 256 ^ n + t % 256 ^ n := by
          rw [hs, combine_cons, ih, split_length, BitVec.toNat_ofNat, Nat.shiftRight_eq_div_pow, h8]
      _ = t % 256 ^ (n + 1) := by rw [Nat.pow_succ, Nat.mod_mul, Nat.mul_comm (256 ^ n), Nat.add_comm]

theorem loadBytes_length (s : State) (a n : Nat) : (s.loadBytes a n).length = n := by simp [State.loadBytes]

/-- A loaded sequence that agrees byte by byte is the same sequence. -/
theorem loadBytes_congr {s t : State} {a n : Nat} (h : ∀ k < n, s.mem.read (a + k) = t.mem.read (a + k)) :
    s.loadBytes a n = t.loadBytes a n :=
  List.map_congr_left fun k hk => h k (List.mem_range.1 hk)

/-! ### Register indices -/

theorem regIndex_of_lt {idx : Nat} (h : idx < 256) : regIndex idx = .ok ⟨idx, h⟩ := dif_pos h

theorem regIndex_of_ge {idx : Nat} (h : 256 ≤ idx) : regIndex idx = .error .outOfRangeIndex := dif_neg (by omega)

theorem slotIndex_of_lt {idx : Nat} (h : idx < 32) : slotIndex idx = .ok ⟨idx, h⟩ := dif_pos h

theorem slotIndex_of_ge {idx : Nat} (h : 32 ≤ idx) : slotIndex idx = .error .outOfRangeIndex := dif_neg (by omega)

/-! ### The name table -/

/-- `SLOT_OF` is a bijection onto the 32 slots, whatever it is (R15). -/
theorem slotOf_bijective : Function.Bijective slotOf := by
  have h : Function.Bijective Config.defaultSlot := by
    refine ⟨fun a b => ?_, fun j => ?_⟩
    · revert a b; intro a b; cases a <;> cases b <;> decide
    · have : ∀ j : Fin 32, j ∈ Mnemonic.all.map Config.defaultSlot := by decide
      obtain ⟨m, -, hm⟩ := List.mem_map.1 (this j)
      exact ⟨m, hm⟩
  exact (Equiv.bijective Config.slotShuffle).comp h

theorem mem_all (m : Mnemonic) : m ∈ Mnemonic.all := by cases m <;> decide

end Sys2Proof.Machine
end

