-- ==== Sys2Proof/Laws/Exec.lean ====
section
/-! SUPPORT. Everything a command and a step can do, said once: a command ends in its effect on the state and its one answer. -/

namespace Sys2Proof.Machine

theorem respond_eq (r : Response) (s : State) : respond r s = .next { s with rsp := some r } := rfl

theorem raise_eq (e : ErrorKind) (s : State) : raise e s = .next { s with rsp := some (.err e) } := rfl

/-- What a command does to the state beside its answer: the arms that write (R60). -/
def effect (i : Instr) (s : State) : State :=
  match i with
  | .write w addr v => s.storeBytes (alignDown addr w).toNat (valueToBytes w v)
  | .writeb addr v => s.storeByte addr.toNat (lowByte v)
  | .clear => s.clearStore
  | .setreg idx v => if h : idx < 256 then s.writeReg ⟨idx, h⟩ (low64 v) else s
  | .setspec idx v => if h : idx < 32 then s.writeSlot ⟨idx, h⟩ (low64 v) else s
  | .reset => s.zeroRegisters
  | .setpc v => s.writePc (low64 v)
  | .read .. | .readb .. | .used | .getreg .. | .getspec .. | .getname .. | .getpc | .fmthex .. | .fmtsgn .. => s

/-- What a command answers (R60, R70). -/
def answer (i : Instr) (s : State) : Response :=
  match i with
  | .read w sg addr => .val (bytesToValue w sg (s.loadBytes (alignDown addr w).toNat (ew w)))
  | .readb addr => .byte (s.mem.read addr.toNat)
  | .used => .addrs (s.used.map (BitVec.ofNat 64))
  | .getreg idx => if h : idx < 256 then .val (s.readReg ⟨idx, h⟩) else .err .outOfRangeIndex
  | .setreg idx _ => if idx < 256 then .ack else .err .outOfRangeIndex
  | .getspec idx => if h : idx < 32 then .val (s.readSlot ⟨idx, h⟩) else .err .outOfRangeIndex
  | .setspec idx _ => if idx < 32 then .ack else .err .outOfRangeIndex
  | .getname len chars =>
    if 8 < len then .err .unknownRegister
    else
      match resolveName (nameBytes len chars) with
      | .general i => .val (s.readReg i)
      | .special j => .val (s.readSlot j)
      | .unknown => .err .unknownRegister
  | .getpc => .val s.pc
  | .fmthex digits v => .str (padTo digits (hexNumeral (low64 v)))
  | .fmtsgn v => .str (signedNumeral (low64 v))
  | .write .. | .writeb .. | .clear | .reset | .setpc .. => .ack

/-- Every command completes: its effect, with its answer on the response lines. -/
theorem exec_eq (i : Instr) (s : State) : exec i s = .next { effect i s with rsp := some (answer i s) } := by
  cases i with
  | getreg idx =>
    rcases Nat.lt_or_ge idx 256 with h | h
    · simp [exec, execGetreg, regIndex_of_lt h, respond, effect, answer, h]
    · simp [exec, execGetreg, regIndex_of_ge h, raise, respond, effect, answer, Nat.not_lt.2 h]
  | setreg idx v =>
    rcases Nat.lt_or_ge idx 256 with h | h
    · simp [exec, execSetreg, regIndex_of_lt h, respond, effect, answer, h]
    · simp [exec, execSetreg, regIndex_of_ge h, raise, respond, effect, answer, Nat.not_lt.2 h]
  | getspec idx =>
    rcases Nat.lt_or_ge idx 32 with h | h
    · simp [exec, execGetspec, slotIndex_of_lt h, respond, effect, answer, h]
    · simp [exec, execGetspec, slotIndex_of_ge h, raise, respond, effect, answer, Nat.not_lt.2 h]
  | setspec idx v =>
    rcases Nat.lt_or_ge idx 32 with h | h
    · simp [exec, execSetspec, slotIndex_of_lt h, respond, effect, answer, h]
    · simp [exec, execSetspec, slotIndex_of_ge h, raise, respond, effect, answer, Nat.not_lt.2 h]
  | getname len chars =>
    by_cases hl : 8 < len
    · simp [exec, execGetname, effect, answer, Config.NAME_MAX, raise, respond, hl]
    · cases hn : resolveName (nameBytes len chars) <;>
        simp [exec, execGetname, effect, answer, Config.NAME_MAX, raise, respond, hl, hn]
  | _ => rfl

/-- A command's next state, from the fact that it answers one. -/
theorem exec_next {i : Instr} {s t : State} (h : exec i s = .next t) : t = { effect i s with rsp := some (answer i s) } := by
  rw [exec_eq] at h
  injection h with h
  exact h.symm

/-- An error is answered only by a command without effect (R134). -/
theorem effect_of_answer_err {i : Instr} {s : State} {e : ErrorKind} (h : answer i s = .err e) : effect i s = s := by
  cases i with
  | setreg idx v =>
    simp only [answer] at h
    split at h
    · cases h
    · rename_i hn; simp [effect, hn]
  | setspec idx v =>
    simp only [answer] at h
    split at h
    · cases h
    · rename_i hn; simp [effect, hn]
  | write | writeb | clear | reset | setpc => cases h
  | _ => rfl

@[simp] theorem effect_port (i : Instr) (s : State) : (effect i s).port = s.port := by
  cases i <;> simp only [effect, State.storeBytes_port, State.storeByte_port, State.clearStore_port,
    State.zeroRegisters_port, State.writePc_port]
  all_goals split <;> rfl

/-- A command keeps the invariant. -/
theorem effect_inv {s : State} (h : s.Inv) (i : Instr) : (effect i s).Inv := by
  cases i with
  | write w a v => exact storeBytes_inv h _ _ (by rw [valueToBytes_length]; exact alignDown_add_ew_le a w)
  | writeb a v => exact storeByte_inv h _ a.isLt _
  | clear => exact clearStore_inv s
  | setreg | setspec => simp only [effect]; split <;> exact h
  | _ => exact h

/-- What a step can do: wait, reset, perform the command presented, or refuse a reserved encoding. -/
theorem step_cases (s : State) :
    (s.port = [] ∧ step s = .next s) ∨
    (∃ rest, s.port = .hardReset :: rest ∧ step s = .next { State.reset with port := rest }) ∨
    (∃ r rest i, s.port = .command r :: rest ∧ decode r = .ok i ∧ step s = exec i { s with port := rest }) ∨
    (∃ r rest e, s.port = .command r :: rest ∧ decode r = .error e ∧ step s = .refused (.reservedEncoding e)) := by
  rcases hp : s.port with - | ⟨_ | _, rest⟩
  · exact .inl ⟨rfl, by simp [step, portTurn, hp]⟩
  · rename_i r
    rcases hd : decode r with e | i
    · exact .inr (.inr (.inr ⟨r, rest, e, rfl, hd, by simp [step, portTurn, hp, hd]⟩))
    · exact .inr (.inr (.inl ⟨r, rest, i, rfl, hd, by simp [step, portTurn, hp, hd]⟩))
  · exact .inr (.inl ⟨rest, rfl, by simp [step, portTurn, hp, State.hardReset]⟩)

end Sys2Proof.Machine
end

