-- ==== Sys2Proof/Laws/Effects.lean ====
section
/-! SUPPORT. The translator and the effects of the commands in the terms of Safety: which byte, address, register, slot and program
counter a command leaves, and what a step that answers a next state did. -/

namespace Sys2Proof.Machine

/-- Byte strings of one length are equal when they combine to one number. -/
theorem combine_inj {bs cs : List Byte} (hl : bs.length = cs.length) (h : combine bs = combine cs) : bs = cs := by
  induction bs generalizing cs with
  | nil => cases cs; rfl; cases hl
  | cons b bs ih =>
    cases cs with
    | nil => cases hl
    | cons c cs =>
      simp only [List.length_cons, Nat.add_right_cancel_iff] at hl
      rw [combine_cons, combine_cons, hl] at h
      have h1 := combine_lt bs
      have h2 := combine_lt cs
      rw [hl] at h1
      have hp : 0 < 256 ^ cs.length := by positivity
      have e1 : b.toNat = c.toNat := by
        have e : ∀ x y : Nat, y < 256 ^ cs.length → (x * 256 ^ cs.length + y) / 256 ^ cs.length = x := by
          intro x y hy; rw [Nat.add_comm, Nat.add_mul_div_right _ _ hp, Nat.div_eq_of_lt hy, Nat.zero_add]
        rw [← e b.toNat _ h1, ← e c.toNat _ h2, h]
      rw [e1] at h
      rw [BitVec.eq_of_toNat_eq e1, ih hl (by omega)]

theorem storedQuantity_lt (w : Width) (v : Nat) : storedQuantity w v < 256 ^ ew w := by
  unfold storedQuantity
  split
  · subst w; simp [ew]; omega
  · have : 2 ^ (8 * ew w) = 256 ^ ew w := by rw [Nat.pow_mul]
    rw [this]; exact Nat.mod_lt _ (by positivity)

/-- The bytes a WRITE stores combine to the quantity it takes. -/
theorem combine_valueToBytes (w : Width) (v : Nat) : combine (valueToBytes w v) = storedQuantity w v := by
  have hw : 256 ^ ew w = 2 ^ (8 * ew w) := by rw [Nat.pow_mul]
  unfold valueToBytes storedQuantity
  rw [combine_split, hw]
  split
  · subst w; rw [Nat.shiftRight_eq_div_pow]; rfl
  · rfl

theorem split_getD (n t k : Nat) (hk : k < n) : (split n t).getD k 0 = BitVec.ofNat 8 (t / 256 ^ (n - 1 - k)) := by
  have : (2:Nat) ^ (8 * (n - 1 - k)) = 256 ^ (n - 1 - k) := by rw [Nat.pow_mul]
  simp [split, List.getD, hk, Nat.shiftRight_eq_div_pow, this]

theorem ofNat8_mod (x n m : Nat) (h : m < n) : BitVec.ofNat 8 (x % 256 ^ n / 256 ^ m) = BitVec.ofNat 8 (x / 256 ^ m) := by
  apply BitVec.eq_of_toNat_eq
  simp only [BitVec.toNat_ofNat]
  have e : 256 ^ n = 256 ^ m * (256 * 256 ^ (n - m - 1)) := by
    rw [← Nat.pow_succ', ← Nat.pow_add]; congr 1; omega
  rw [e, Nat.mod_mul_right_div_self, Nat.mod_mul_right_mod]

/-- Byte `k` a WRITE stores. -/
theorem valueToBytes_getD (w : Width) (v k : Nat) (hk : k < ew w) : (valueToBytes w v).getD k 0 = storedByte w v k := by
  unfold storedByte storedQuantity
  by_cases hw : w = .highTetra
  · subst hw
    simp only [valueToBytes, if_true]
    rw [split_getD _ _ _ hk, Nat.shiftRight_eq_div_pow, show (2:Nat)^32 = 256 ^ ew .highTetra by rfl, ofNat8_mod]
    simp [ew] at *; omega
  · rw [if_neg hw]
    have : valueToBytes w v = split (ew w) v := by simp [valueToBytes, hw]
    rw [this, split_getD _ _ _ hk, Nat.pow_mul, show (2:Nat)^8 = 256 by rfl, ofNat8_mod]
    omega

/-- Every byte after a WRITE. -/
theorem write_byteAt (w a v s) (b : Addr) : (effect (.write w a v) s).byteAt b =
    if covers w a b then storedByte w v (b.toNat - (alignDown a w).toNat) else s.byteAt b := by
  unfold State.byteAt effect
  simp only [storeBytes_read, valueToBytes_length, covers]
  split
  · rw [valueToBytes_getD]; omega
  · rfl

/-- `USED` after a WRITE. -/
theorem write_isUsed (w a v s) (b : Addr) : (effect (.write w a v) s).isUsed b ↔ covers w a b ∨ s.isUsed b := by
  unfold State.isUsed effect
  simp only [storeBytes_mem_used, valueToBytes_length, covers]

/-- Loaded bytes combine to the big-endian sum. -/
theorem combine_loadBytes (s : State) (a n : Nat) : combine (s.loadBytes a n) = bigEndian s a n := by
  unfold State.loadBytes bigEndian
  have key : ∀ l : List Byte, combine l = ((List.range l.length).map fun k => (l.getD k 0).toNat * 256 ^ (l.length - 1 - k)).sum := by
    intro l
    induction l with
    | nil => rfl
    | cons b l ih =>
      rw [combine_cons, ih, List.length_cons, List.range_succ_eq_map, List.map_cons, List.sum_cons, List.map_map]
      simp only [List.getD_cons_zero, Nat.add_sub_cancel, Nat.sub_zero]
      congr 2
      apply List.map_congr_left
      intro k hk
      simp only [Function.comp, List.getD_cons_succ, Nat.succ_eq_add_one]
      rw [show l.length - (k + 1) = l.length - 1 - k by omega]
  rw [key]
  simp only [List.length_map, List.length_range]
  congr 1
  apply List.map_congr_left
  intro k hk
  have := List.mem_range.1 hk
  simp [List.getD, this]

theorem bigEndian_lt (s a n) : bigEndian s a n < 256 ^ n := by
  rw [← combine_loadBytes]; have := combine_lt (s.loadBytes a n); rwa [loadBytes_length] at this

/-- Every byte after any command. -/
theorem effect_byteAt (i s) (a : Addr) : (effect i s).byteAt a = (writesByte a i).getD (s.byteAt a) := by
  cases i with
  | write w b v => rw [write_byteAt]; simp only [writesByte]; split <;> rfl
  | writeb b v => 
    simp only [effect, State.byteAt, writesByte, State.storeByte_mem, Memory.read_write, lowByte]
    by_cases h : b = a
    · simp [h]
    · have : a.toNat ≠ b.toNat := fun e => h (BitVec.eq_of_toNat_eq e.symm)
      simp [h, this]
  | clear => rfl
  | setreg | setspec => simp only [effect]; split <;> rfl
  | _ => rfl

/-- `USED` after any command. -/
theorem effect_isUsed (i s) (a : Addr) : (effect i s).isUsed a ↔ (writesUse a i).getD (decide (a.toNat ∈ s.used)) = true := by
  cases i with
  | write w b v => rw [write_isUsed]; simp only [writesUse]; split <;> rename_i hc <;> simp [State.isUsed, hc]; exact .inl hc
  | writeb b v => 
    simp only [effect, State.isUsed, writesUse, State.storeByte_used, mem_insertAddr]
    by_cases h : b = a
    · simp [h]
    · have : a.toNat ≠ b.toNat := fun e => h (BitVec.eq_of_toNat_eq e.symm)
      simp [h, this]
  | clear => simp [effect, State.isUsed, writesUse]
  | setreg | setspec => simp only [effect]; split <;> simp [State.isUsed, writesUse]
  | _ => simp [effect, State.isUsed, writesUse]

theorem storeBytes_readReg (s a bs i) : (State.storeBytes s a bs).readReg i = s.readReg i := by simp [State.readReg]

theorem storeBytes_readSlot (s a bs i) : (State.storeBytes s a bs).readSlot i = s.readSlot i := by simp [State.readSlot]

/-- Every general register after any command. -/
theorem effect_readReg (i s) (k : Fin 256) : (effect i s).readReg k = (writesReg k i).getD (s.readReg k) := by
  cases i with
  | setreg idx v =>
    simp only [effect, writesReg]
    by_cases h : idx < 256
    · simp only [h, dite_true, State.readReg_writeReg, low64]
      by_cases hk : idx = k.val
      · have : k = ⟨idx, h⟩ := Fin.ext hk.symm
        simp [hk]
      · have : k ≠ ⟨idx, h⟩ := fun e => hk (by rw [e])
        simp [hk, this]
    · have : idx ≠ k.val := by have := k.isLt; omega
      simp [h, this]
  | reset => simp [effect, writesReg]
  | write => simp [effect, writesReg, storeBytes_readReg]
  | setspec => simp only [effect]; split <;> rfl
  | _ => rfl

/-- Every slot after any command. -/
theorem effect_readSlot (i s) (k : Fin 32) : (effect i s).readSlot k = (writesSlot k i).getD (s.readSlot k) := by
  cases i with
  | setspec idx v =>
    simp only [effect, writesSlot]
    by_cases h : idx < 32
    · simp only [h, dite_true, State.readSlot_writeSlot, low64]
      by_cases hk : idx = k.val
      · have : k = ⟨idx, h⟩ := Fin.ext hk.symm
        simp [hk]
      · have : k ≠ ⟨idx, h⟩ := fun e => hk (by rw [e])
        simp [hk, this]
    · have : idx ≠ k.val := by have := k.isLt; omega
      simp [h, this]
  | reset => simp [effect, writesSlot]
  | write => simp [effect, writesSlot, storeBytes_readSlot]
  | setreg => simp only [effect]; split <;> rfl
  | _ => rfl

/-- The program counter after any command. -/
theorem effect_pc (i s) : (effect i s).pc = (writesPc i).getD s.pc := by
  cases i with
  | write => simp [effect, writesPc]
  | setreg | setspec => simp only [effect]; split <;> rfl
  | _ => rfl

theorem latest_nil {α} (f : Instr → Option α) (b : α) : latest [] f b = b := rfl

theorem latest_cons {α} (i h) (f : Instr → Option α) (b : α) : latest (i :: h) f b = latest h f ((f i).getD b) := by
  simp only [latest, List.reverse_cons, List.findSome?_append]
  cases (List.findSome? f h.reverse) <;> simp [List.findSome?]
  cases f i <;> rfl

/-- What stands at the response lines changes nothing of a command. -/
theorem exec_setRsp (j : Instr) (s : State) (r : Option Response) : exec j { s with rsp := r } = exec j s := by
  have h1 : answer j { s with rsp := r } = answer j s := by cases j <;> rfl
  have hsb : ∀ bs a (s : State), ({ s with rsp := r } : State).storeBytes a bs = { s.storeBytes a bs with rsp := r } := by
    intro bs
    induction bs with
    | nil => intro a s; rfl
    | cons b bs ih => intro a s; exact ih (a+1) (s.storeByte a b)
  have h2 : effect j { s with rsp := r } = { effect j s with rsp := r } := by
    cases j with
    | write => exact hsb _ _ s
    | setreg | setspec => simp only [effect]; split <;> rfl
    | _ => rfl
  rw [exec_eq, exec_eq, h1, h2]

/-- A step that answers a next state waited, was a hard reset, or performed one command. -/
theorem step_next {s t : State} (h : step s = .next t) : t = s ∨ s.resets ∨ ∃ i rest, s.performs i ∧ t = { effect i { s with port := rest } with rsp := some (answer i { s with port := rest }) } := by
  rcases step_cases s with ⟨h1,h2⟩ | ⟨r, h1, h2⟩ | ⟨r, q, i, h1, h3, h2⟩ | ⟨r, q, i, h1, h3, h2⟩
  · rw [h2] at h; cases h; exact .inl rfl
  · exact .inr (.inl ⟨r, h1⟩)
  · rw [h2] at h; exact .inr (.inr ⟨i, q, ⟨r, q, h1, h3⟩, exec_next h⟩)
  · rw [h2] at h; cases h

/-- A functional-form number is a natural number exactly when it is that integer. -/
theorem naturalOf_eq_some (d : NumberArg) (n : Nat) : naturalOf d = some n ↔ d = .integer n := by
  cases d with
  | integer i => cases i <;> simp [naturalOf]
  | notInteger => simp [naturalOf]

/-- A command with an index runs when the index is a natural number, and is out of range otherwise. -/
theorem withIndex_cases (d : NumberArg) (f : Nat → Instr) :
    (∃ n : Nat, d = .integer n ∧ withIndex d f = .command (f n)) ∨
    ((∀ n : Nat, d ≠ .integer n) ∧ withIndex d f = .error .outOfRangeIndex) := by
  unfold withIndex
  cases h : naturalOf d with
  | some n => exact .inl ⟨n, (naturalOf_eq_some d n).1 h, rfl⟩
  | none => exact .inr ⟨fun n e => absurd (h.symm.trans ((naturalOf_eq_some d n).2 e)) nofun, rfl⟩

end Sys2Proof.Machine
end

