-- ==== Sys2Proof/Laws/Numerals.lean ====
section
/-! SUPPORT. Numerals: what the formatting helpers and the designator reader compute, as the digit sequences of Safety. -/

namespace Sys2Proof.Machine

theorem digitChar_ascii : digitChar = asciiDigit := by
  funext d; simp only [digitChar, asciiDigit]
  split
  · rfl
  · rename_i h; congr 1; omega

/-- The digits of a numeral, most significant first. -/
def numDigits (base : Nat) : Nat → Nat → List Nat
  | 0, _ => []
  | f+1, n => if n < base then [n] else numDigits base f (n / base) ++ [n % base]

theorem numeral_digits (base f n) : numeral base f n = (numDigits base f n).map asciiDigit := by
  induction f generalizing n with
  | zero => rfl
  | succ f ih =>
    simp only [numeral, numDigits]
    split
    · simp [digitChar_ascii]
    · simp [ih, digitChar_ascii]

theorem digitsNumber_append (base : Nat) (ds : List Nat) (d : Nat) : digitsNumber base (ds ++ [d]) = base * digitsNumber base ds + d := by simp [digitsNumber]

/-- A numeral with enough digits is the numeral of its number. -/
theorem numDigits_spec (base f n : Nat) (hb : 2 ≤ base) (hf : 0 < f) (hn : n < base ^ f) :
   isNumeral base n (numDigits base f n) ∧ (numDigits base f n).length ≤ f ∧ (n ≠ 0 → (numDigits base f n).head? ≠ some 0) := by
  induction f generalizing n with
  | zero => omega
  | succ f ih =>
    simp only [numDigits]
    split
    · rename_i h
      refine ⟨⟨by simp, by simp [h], by simp, by simp [digitsNumber]⟩, by simp, by simp⟩
    · rename_i h
      have hf : 0 < f := by
        rcases Nat.eq_zero_or_pos f with rfl | h'
        · simp at hn; omega
        · exact h'
      have hd : n / base < base ^ f := by
        rw [Nat.div_lt_iff_lt_mul (by omega)]; rwa [← Nat.pow_succ]
      obtain ⟨⟨h1, h2, h3, h4⟩, h5, h6⟩ := ih (n / base) hf hd
      have h0 : n / base ≠ 0 := by
        intro h'; rw [Nat.div_eq_zero_iff] at h'; omega
      have hh : (numDigits base f (n / base) ++ [n % base]).head? ≠ some 0 := by
        have := h6 h0
        cases he : numDigits base f (n / base) with
        | nil => exact absurd he h1
        | cons x l => rw [he] at this; simpa using this
      refine ⟨⟨by simp, ?_, .inr hh, ?_⟩, by simp; omega, fun _ => hh⟩
      · intro d hd
        rcases List.mem_append.1 hd with hd | hd
        · exact h2 d hd
        · simp at hd; subst hd; exact Nat.mod_lt _ (by omega)
      · rw [digitsNumber_append, h4]; exact Nat.div_add_mod n base

theorem digitValue_some {c : Byte} {d : Nat} : digitValue c = some d ↔ d < 10 ∧ c = asciiDigit d := by
  unfold digitValue asciiDigit
  constructor
  · intro h
    split at h
    · rename_i hc
      simp at h; subst h
      refine ⟨by omega, ?_⟩
      rw [if_pos (by omega)]
      apply BitVec.eq_of_toNat_eq; simp; omega
    · cases h
  · rintro ⟨h, rfl⟩
    rw [if_pos h]
    have : (BitVec.ofNat 8 (48 + d)).toNat = 48 + d := by simp; omega
    rw [this, if_pos (by omega)]; simp

theorem fold_some (cs : List Byte) (a v : Nat) :
   cs.foldl (fun acc c => do return (← acc) * 10 + (← digitValue c)) (some a) = some v ↔ 
   ∃ ds : List Nat, (∀ d ∈ ds, d < 10) ∧ cs = ds.map asciiDigit ∧ ds.foldl (fun v d => 10 * v + d) a = v := by
  induction cs generalizing a with
  | nil => 
    constructor
    · intro h; exact ⟨[], by simp, rfl, by simpa using h⟩
    · rintro ⟨ds, -, h, h'⟩
      cases ds with
      | nil => simpa using h'
      | cons => cases h
  | cons c cs ih =>
    rw [List.foldl_cons]
    cases hd : digitValue c with
    | none =>
      have : ∀ cs : List Byte, cs.foldl (fun acc c => do return (← acc) * 10 + (← digitValue c)) (none : Option Nat) = none := by
        intro cs; induction cs with
        | nil => rfl
        | cons c cs ih => exact ih
      constructor
      · intro h
        have h2 := (this cs).symm.trans h
        cases h2
      · rintro ⟨ds, h1, h2, -⟩
        cases ds with
        | nil => cases h2
        | cons d ds =>
          simp at h2
          have := digitValue_some.2 ⟨h1 d (by simp), h2.1⟩
          rw [hd] at this; cases this
    | some d =>
      have hd' := digitValue_some.1 hd
      show List.foldl _ (some (a * 10 + d)) cs = some v ↔ _
      rw [ih]
      constructor
      · rintro ⟨ds, h1, h2, h3⟩
        refine ⟨d :: ds, ?_, ?_, ?_⟩
        · simp [hd'.1]; exact h1
        · simp [h2, hd'.2]
        · rw [← h3, List.foldl_cons, Nat.mul_comm]
      · rintro ⟨ds, h1, h2, h3⟩
        cases ds with
        | nil => cases h2
        | cons d' ds =>
          simp only [List.map_cons, List.cons.injEq] at h2
          have := digitValue_some.2 ⟨h1 d' (by simp), h2.1⟩
          rw [hd] at this; cases this
          exact ⟨ds, fun x hx => h1 x (by simp [hx]), h2.2, by rw [← h3, List.foldl_cons, Nat.mul_comm]⟩

theorem asciiDigit_eq_zero (d : Nat) (h : d < 10) : asciiDigit d = 0x30#8 ↔ d = 0 := by
  interval_cases d <;> decide

theorem isNumeral_length_le (ds : List Nat) (i : Nat) (hi : i < 256) (h : isNumeral 10 i ds) : ds.length ≤ 3 := by
  obtain ⟨h1, h2, h3, h4⟩ := h
  by_contra hc
  have hh : ds.head? ≠ some 0 := by
    rcases h3 with h3 | h3
    · omega
    · exact h3
  match ds, h1, h2, hh, h4, hc with
  | a :: b :: c :: d :: l, _, h2, hh, h4, _ =>
    have ha : 0 < a := by
      rcases Nat.eq_zero_or_pos a with rfl | h
      · simp at hh
      · exact h
    have key : ∀ (l : List Nat) (v : Nat), v ≤ l.foldl (fun v d => 10 * v + d) v := by
      intro l; induction l with
      | nil => intro v; simp
      | cons x l ih => intro v; exact le_trans (by omega) (ih (10 * v + x))
    have := key l (10 * (10 * (10 * (10 * 0 + a) + b) + c) + d)
    simp only [digitsNumber, List.foldl_cons] at h4
    omega
  | [], h1, _, _, _, _ => exact h1 rfl
  | [_], _, _, _, _, hc => simp at hc
  | [_, _], _, _, _, _, hc => simp at hc
  | [_, _, _], _, _, _, _, hc => simp at hc

/-- The designator reader accepts the canonical numerals of 0 to 255 and nothing else. -/
theorem designatorIndex_some (cs : List Byte) (i : Fin 256) : designatorIndex cs = some i ↔ ∃ ds, isNumeral 10 i.val ds ∧ cs = ds.map asciiDigit := by
  unfold designatorIndex
  constructor
  · intro h
    split at h
    · rename_i hc
      cases hv : digitsValue cs with
      | none => rw [hv] at h; cases h
      | some v =>
        rw [hv] at h
        simp only at h
        split at h
        · rename_i hlt
          cases h
          obtain ⟨ds, h1, h2, h3⟩ := (fold_some cs 0 v).1 hv
          refine ⟨ds, ⟨?_, h1, ?_, h3⟩, h2⟩
          · rintro rfl; simp [h2] at hc
          · rcases hc.2.2 with hl | hl
            · left; simpa [h2] using hl
            · right
              intro h0
              apply hl
              cases ds with
              | nil => cases h0
              | cons x ds => simp at h0; subst h0; simp [h2]; rfl
        · cases h
    · cases h
  · rintro ⟨ds, hn, rfl⟩
    have hlen := isNumeral_length_le ds i i.isLt hn
    obtain ⟨h1, h2, h3, h4⟩ := hn
    have hv : digitsValue (ds.map asciiDigit) = some i.val := (fold_some _ 0 _).2 ⟨ds, h2, rfl, h4⟩
    rw [if_pos, hv]
    · simp
    · refine ⟨?_, by simpa using hlen, ?_⟩
      · cases ds with
        | nil => exact absurd rfl h1
        | cons => simp
      · rcases h3 with h3 | h3
        · left; simpa using h3
        · right
          cases ds with
          | nil => exact absurd rfl h1
          | cons x ds =>
            simp at h3 ⊢
            intro h
            exact h3 ((asciiDigit_eq_zero x (h2 x (by simp))).1 h)

end Sys2Proof.Machine
end

