-- ==== Sys2Proof/Laws/PerInstr.lean ====
section
/-! SUPPORT. The statements made one command at a time. -/

namespace Sys2Proof.Laws.EncodedWord

/-- The operation code of the opcode table's row (R63). -/
def opOf : Instr → BitVec 4
  | .read .. => 0x0 | .write .. => 0x1 | .readb .. => 0x2 | .writeb .. => 0x3
  | .used => 0x4 | .clear => 0x5 | .getreg .. => 0x6 | .setreg .. => 0x7
  | .getspec .. => 0x8 | .setspec .. => 0x9 | .getname .. => 0xA | .reset => 0xB
  | .getpc => 0xC | .setpc .. => 0xD | .fmthex .. => 0xE | .fmtsgn .. => 0xF

/-- The encoder puts the row's operation code in bits 31:28 and drives the unused bits 23:16 to 0 (R62, R63, R68). -/
def Statement (i : Instr) : Prop :=
  (encode i).op = opOf i ∧ (encode i).cw.toNat / 2 ^ 16 % 2 ^ 8 = 0

/-- Bits 23:16 of a command word the encoder builds are 0. -/
theorem commandWord_unused (op : BitVec 4) (wsel : BitVec 3) (sg : Bool) (idx : Nat) :
    (commandWord op wsel sg idx).toNat / 2 ^ 16 % 2 ^ 8 = 0 := by
  have h4 : idx % 2 ^ 16 < 2 ^ 16 := Nat.mod_lt _ (by decide)
  rw [commandWord_toNat]
  omega

theorem read (w : Width) (sg : Bool) (a : Addr) : Statement (.read w sg a) := ⟨op_commandWord .., commandWord_unused ..⟩
theorem write (w : Width) (a : Addr) (v : Nat) : Statement (.write w a v) := ⟨op_commandWord .., commandWord_unused ..⟩
theorem readb (a : Addr) : Statement (.readb a) := ⟨op_commandWord .., commandWord_unused ..⟩
theorem writeb (a : Addr) (v : Nat) : Statement (.writeb a v) := ⟨op_commandWord .., commandWord_unused ..⟩
theorem used : Statement .used := ⟨op_commandWord .., commandWord_unused ..⟩
theorem clear : Statement .clear := ⟨op_commandWord .., commandWord_unused ..⟩
theorem getreg (idx : Nat) : Statement (.getreg idx) := ⟨op_commandWord .., commandWord_unused ..⟩
theorem setreg (idx v : Nat) : Statement (.setreg idx v) := ⟨op_commandWord .., commandWord_unused ..⟩
theorem getspec (idx : Nat) : Statement (.getspec idx) := ⟨op_commandWord .., commandWord_unused ..⟩
theorem setspec (idx v : Nat) : Statement (.setspec idx v) := ⟨op_commandWord .., commandWord_unused ..⟩
theorem getname (len : Nat) (c : Addr) : Statement (.getname len c) := ⟨op_commandWord .., commandWord_unused ..⟩
theorem reset : Statement .reset := ⟨op_commandWord .., commandWord_unused ..⟩
theorem getpc : Statement .getpc := ⟨op_commandWord .., commandWord_unused ..⟩
theorem setpc (v : Nat) : Statement (.setpc v) := ⟨op_commandWord .., commandWord_unused ..⟩
theorem fmthex (d v : Nat) : Statement (.fmthex d v) := ⟨op_commandWord .., commandWord_unused ..⟩
theorem fmtsgn (v : Nat) : Statement (.fmtsgn v) := ⟨op_commandWord .., commandWord_unused ..⟩

end Sys2Proof.Laws.EncodedWord
end

