-- ==== Sys2Proof/Tests/Slice0.lean ====
section
/-! SUPPORT. Tests and witnesses. Every expected value is written out from a table or an example of the spec, named beside it
(the section numbers are those of spec/95_test_vectors.md), never from the model's own answer. -/

namespace Sys2Proof.Tests

open Sys2Proof.Machine

/-! ### Helpers -/

/-- What one step answers when the command with these operand fields is presented. -/
def ask (s : State) (cw : BitVec 32) (addr : Addr) (wdata : Nat) : Option Response :=
  match step (s.present ⟨cw, addr, wdata⟩) with
  | .next t => t.rsp
  | .fault _ => none
  | .refused _ => none

/-- What one step leaves of a state, read by `f`, when the command is presented. -/
def after {α : Type} (f : State → α) (s : State) (cw : BitVec 32) (addr : Addr) (wdata : Nat) : Option α :=
  match step (s.present ⟨cw, addr, wdata⟩) with
  | .next t => some (f t)
  | .fault _ => none
  | .refused _ => none

/-- The memory of the power-on state with these bytes stored from `a` up. -/
def withBytes (a : Nat) (bs : List Byte) : State := State.reset.storeBytes a bs

/-- Section 2.2's memory: 80 7F FF 00 81 02 03 FE at 0x100. -/
def mem22 : State := withBytes 0x100 [0x80, 0x7F, 0xFF, 0x00, 0x81, 0x02, 0x03, 0xFE]

/-- Section 2.9's registers, of its slots the one the tests read: x[0], x[5], x[255] and s[21]. -/
def regs29 : State :=
  (((State.reset.writeReg 0 0x10).writeReg 5 0x15).writeReg 255 0xFF00).writeSlot 21 0x515

/-! ### WellFormed refuses -/

theorem test_wf_index_field :
    (Instr.getreg 65535).wellFormed = true ∧ (Instr.getreg 65536).wellFormed = false ∧
    (Instr.setreg 65536 0).wellFormed = false ∧ (Instr.getspec 65536).wellFormed = false ∧
    (Instr.setspec 65536 0).wellFormed = false ∧ (Instr.getname 65536 0).wellFormed = false ∧
    (Instr.fmthex 65536 0).wellFormed = false := by decide

theorem test_wf_value_input :
    (Instr.write .byte 0 (2 ^ 128 - 1)).wellFormed = true ∧ (Instr.write .byte 0 (2 ^ 128)).wellFormed = false ∧
    (Instr.writeb 0 (2 ^ 128)).wellFormed = false ∧ (Instr.setreg 0 (2 ^ 128)).wellFormed = false ∧
    (Instr.setspec 0 (2 ^ 128)).wellFormed = false ∧ (Instr.setpc (2 ^ 128)).wellFormed = false ∧
    (Instr.fmthex 0 (2 ^ 128)).wellFormed = false ∧ (Instr.fmtsgn (2 ^ 128)).wellFormed = false := by decide

/-- A narrower value input refuses what it cannot carry (R5: `VW` is at least 64). -/
theorem test_wf_narrow_input :
    (Instr.setpc (2 ^ 64 - 1)).wellFormed 64 = true ∧ (Instr.setpc (2 ^ 64)).wellFormed 64 = false := by decide

theorem test_wf_no_operand_to_refuse :
    (Instr.read .octa true (BitVec.allOnes 64)).wellFormed = true ∧ (Instr.readb (BitVec.allOnes 64)).wellFormed = true ∧
    Instr.used.wellFormed = true ∧ Instr.clear.wellFormed = true ∧ Instr.reset.wellFormed = true ∧
    Instr.getpc.wellFormed = true := by decide

/-! ### Decoding, one word or more per command -/

theorem test_decode_read :
    decode ⟨0x00000000, 0x40, 0⟩ = .ok (.read .byte false 0x40) ∧ decode ⟨0x01000000, 0x40, 0⟩ = .ok (.read .byte true 0x40) ∧
    decode ⟨0x02000000, 0x100, 0⟩ = .ok (.read .wyde false 0x100) ∧ decode ⟨0x05000000, 0x100, 0⟩ = .ok (.read .tetra true 0x100) ∧
    decode ⟨0x07000000, 0x100, 0⟩ = .ok (.read .octa true 0x100) ∧ decode ⟨0x09000000, 0x100, 0⟩ = .ok (.read .highTetra true 0x100) :=
  ⟨by decide, by decide, by decide, by decide, by decide, by decide⟩

theorem test_decode_write :
    decode ⟨0x10000000, 0x207, 9⟩ = .ok (.write .byte 0x207 9) ∧ decode ⟨0x12000000, 0x207, 9⟩ = .ok (.write .wyde 0x207 9) ∧
    decode ⟨0x14000000, 0x207, 9⟩ = .ok (.write .tetra 0x207 9) ∧ decode ⟨0x16000000, 0x207, 9⟩ = .ok (.write .octa 0x207 9) ∧
    decode ⟨0x18000000, 0x207, 9⟩ = .ok (.write .highTetra 0x207 9) := ⟨by decide, by decide, by decide, by decide, by decide⟩

theorem test_decode_readb : decode ⟨0b00100000000000000000000000000000, 0x3E8, 0⟩ = .ok (.readb 0x3E8) := by decide
theorem test_decode_writeb : decode ⟨0b00110000000000000000000000000000, 0x40, 0xAB⟩ = .ok (.writeb 0x40 0xAB) := by decide
theorem test_decode_used : decode ⟨0b01000000000000000000000000000000, 0, 0⟩ = .ok .used := by decide
theorem test_decode_clear : decode ⟨0b01010000000000000000000000000000, 0, 0⟩ = .ok .clear := by decide
theorem test_decode_getreg : decode ⟨0b01100000000000000000000011111111, 0, 0⟩ = .ok (.getreg 255) := by decide
theorem test_decode_setreg : decode ⟨0b01110000000000000000000100000000, 0, 7⟩ = .ok (.setreg 256 7) := by decide
theorem test_decode_getspec : decode ⟨0b10000000000000000000000000011111, 0, 0⟩ = .ok (.getspec 31) := by decide
theorem test_decode_setspec : decode ⟨0b10010000000000000000000000100000, 0, 1⟩ = .ok (.setspec 32 1) := by decide
theorem test_decode_getname :
    decode ⟨0b10100000000000000000000000000011, 0x725A5A0000000000, 0⟩ = .ok (.getname 3 0x725A5A0000000000) := by decide
theorem test_decode_reset : decode ⟨0b10110000000000000000000000000000, 0, 0⟩ = .ok .reset := by decide
theorem test_decode_getpc : decode ⟨0b11000000000000000000000000000000, 0, 0⟩ = .ok .getpc := by decide
theorem test_decode_setpc : decode ⟨0b11010000000000000000000000000000, 0, 0x100⟩ = .ok (.setpc 0x100) := by decide
theorem test_decode_fmthex : decode ⟨0b11100000000000000000000000010100, 0, 5⟩ = .ok (.fmthex 20 5) := by decide
theorem test_decode_fmtsgn : decode ⟨0b11110000000000000000000000000000, 0, 42⟩ = .ok (.fmtsgn 42) := by decide

/-- The reserved encodings, by name (R69), and their neighbours. -/
theorem test_decode_reserved :
    decode ⟨0x0A000000, 0, 0⟩ = .error (.readWidth 5) ∧ decode ⟨0x0E000000, 0, 0⟩ = .error (.readWidth 7) ∧
    decode ⟨0x1C000000, 0, 0⟩ = .error (.writeWidth 6) ∧ decode ⟨0x18000000, 0, 0⟩ = .ok (.write .highTetra 0 0) :=
  ⟨by decide, by decide, by decide, by decide⟩

/-- Unused fields driven non-zero (section 2.13). -/
theorem test_decode_unused_fields :
    decode ⟨0x20FFFFFF, 0x11, 0xDEAD⟩ = .ok (.readb 0x11) ∧ decode ⟨0x1700ABCD, 0x20, 3⟩ = .ok (.write .octa 0x20 3) ∧
    decode ⟨0x09000000, 0x100, 0⟩ = .ok (.read .highTetra true 0x100) ∧ decode ⟨0xB7FFFFFF, 77, 88⟩ = .ok .reset :=
  ⟨by decide, by decide, by decide, by decide⟩

/-- The encoder gives the fields of sections E1, 2.8 and 2.9. -/
theorem test_encode_words :
    encode (.write .octa 1000 0x0123456789ABCDEF) = ⟨0x16000000, 0x3E8, 0x0123456789ABCDEF⟩ ∧
    encode (.read .highTetra false 1005) = ⟨0x08000000, 0x3ED, 0⟩ ∧
    encode (.setspec 31 0x8000000000000000) = ⟨0x9000001F, 0, 0x8000000000000000⟩ ∧
    encode (.getname 4 0x2432353500000000) = ⟨0xA0000004, 0x2432353500000000, 0⟩ ∧
    encode (.fmthex 16 171) = ⟨0xE0000010, 0, 171⟩ := ⟨by decide, by decide, by decide, by decide, by decide⟩

theorem test_table_word :
    decodeTableWord 32 0x600000FF = some (.getreg 255) ∧ decodeTableWord 32 0x0C000000 = none ∧
    decodeTableWord 32 0xF0000000 = some (.fmtsgn 0) ∧
    decodeTableWord 160 (0x16000000 + 0x3E8 <<< 32 + 7 <<< 96) = some (.write .octa 0x3E8 7) :=
  ⟨by decide, by decide, by decide, by decide⟩

/-- The word placed is the command the next step runs: GETPC of the power-on state. -/
theorem test_withFetchWord_runs :
    step (State.reset.withFetchWord 32 0xC0000000) = .next { State.reset with rsp := some (.val 0) } := rfl

/-! ### One step of each command -/

/-- Sections E5 and 2.2: high tetra; sign bit set and clear; a misaligned wyde. -/
theorem test_read_high_tetra :
    ask (withBytes 1000 [0x01, 0x23, 0x45, 0x67, 0x89, 0xAB, 0xCD, 0xEF]) 0x08000000 1005 0 = some (.val 0x89ABCDEF00000000) := by
  decide

theorem test_read_signed :
    ask mem22 0x03000000 0x101 0 = some (.val 0xFFFFFFFFFFFF807F) ∧ ask mem22 0x02000000 0x101 0 = some (.val 0x807F) ∧
    ask mem22 0x03000000 0x107 0 = some (.val 0x3FE) ∧ ask mem22 0x07000000 0x100 0 = some (.val 0x807FFF00810203FE) ∧
    ask mem22 0x02000000 0xFF 0 = some (.val 0) := by decide

/-- Section 2.3: a high tetra stores four bytes and no more. -/
theorem test_write_high_tetra :
    after (fun t => (t.mem, t.used)) State.reset 0x18000000 0x207 0x1122334455667788 =
      some ([(0x204, 0x11), (0x205, 0x22), (0x206, 0x33), (0x207, 0x44)], [0x204, 0x205, 0x206, 0x207]) := by decide

/-- Sections 2.5 and 2.3: no wrap at the top of memory; writing zero lists nothing and still enlarges `USED`. -/
theorem test_write_top_and_zero :
    after (fun t => (t.byteAt 0, t.byteAt 0xFFFFFFFFFFFFFFFF, t.used.head?)) State.reset 0x16000000 0xFFFFFFFFFFFFFFFF
      0xA1A2A3A4A5A6A7A8 = some (0, 0xA8, some 0xFFFFFFFFFFFFFFF8) ∧
    after (fun t => (t.mem, t.used)) State.reset 0x14000000 0x300 0 = some ([], [0x300, 0x301, 0x302, 0x303]) := by
  decide

/-- Section E1's last byte, and E7. -/
theorem test_readb :
    ask (withBytes 1007 [0xEF]) 0x20000000 1007 0 = some (.byte 0xEF) ∧ ask State.reset 0x20000000 1000 0 = some (.byte 0) := by
  decide

/-- Section 2.6: the low byte at an odd address; a byte overwritten with 0 stays used. -/
theorem test_writeb :
    after (fun t => (t.mem, t.used)) (withBytes 0x11 [0xAB]) 0x30000000 0x11 0x1CD = some ([(0x11, 0xCD)], [0x11]) ∧
    after (fun t => (t.mem, t.used)) (withBytes 0x13 [0x44]) 0x30000000 0x13 0xFFFFFFFFFFFFFF00 = some ([], [0x13]) := by
  decide

/-- Section 2.7: ascending as unsigned numbers, an address with bit 63 set last; empty at power-on. -/
theorem test_used :
    ask (((State.reset.storeByte 0x9000000000000000 1).storeBytes 0x30 [0xBE, 0xEF]).storeByte 5 0) 0x40000000 0 0 =
      some (.addrs [0x5, 0x30, 0x31, 0x9000000000000000]) ∧
    ask State.reset 0x40000000 0 0 = some (.addrs []) := by decide

theorem test_clear :
    after (fun t => (t.mem, t.used, t.pc)) ((withBytes 0x30 [0xBE, 0xEF]).writePc 7) 0x50000000 0 0 = some ([], [], 7) := by
  decide

/-- Section 2.8: the last register, the first index out of range. -/
theorem test_getreg :
    ask (State.reset.writeReg 255 0x0123456789ABCDEF) 0x600000FF 0 0 = some (.val 0x0123456789ABCDEF) ∧
    ask State.reset 0x60000100 0 0 = some (.err .outOfRangeIndex) := by decide

/-- Section E6: 2^64 + 5 stores 5; program P4: index 256 does not wrap to 0. -/
theorem test_setreg :
    after (fun t => (t.readReg 255, t.readReg 0)) State.reset 0x700000FF 0 0x10000000000000005 = some (5, 0) ∧
    after (fun t => (t.rsp, t.readReg 0)) State.reset 0x70000100 0 7 = some (some (.err .outOfRangeIndex), 0) := by
  decide

theorem test_getspec :
    ask (State.reset.writeSlot 31 0x8000000000000000) 0x8000001F 0 0 = some (.val 0x8000000000000000) ∧
    ask State.reset 0x80000020 0 0 = some (.err .outOfRangeIndex) := by decide

theorem test_setspec :
    after (fun t => (t.readSlot 0, t.readReg 0)) State.reset 0x90000000 0 0x10000000000000007 = some (7, 0) ∧
    after (fun t => (t.rsp, t.readSlot 0)) State.reset 0x90000020 0 1 = some (some (.err .outOfRangeIndex), 0) := by
  decide

/-- Section 2.9: designators, valid and not. -/
theorem test_getname_designators :
    ask regs29 0xA0000002 0x2430000000000000 0 = some (.val 0x10) ∧ ask regs29 0xA0000004 0x2432353500000000 0 = some (.val 0xFF00) ∧
    ask regs29 0xA0000004 0x2432353600000000 0 = some (.err .unknownRegister) ∧
    ask regs29 0xA0000004 0x2430303700000000 0 = some (.err .unknownRegister) ∧
    ask regs29 0xA0000001 0x2400000000000000 0 = some (.err .unknownRegister) := by decide

/-- Section 2.9: `rA` with the default `SLOT_OF`, its unused name bytes not 0. -/
theorem test_getname_default_slot (h : Config.slotShuffle = Equiv.refl _) :
    ask regs29 0xA0000002 0x7241FFFFFFFFFFFF 0 = some (.val 0x515) := by
  have hn : resolveName (nameBytes 2 0x7241FFFFFFFFFFFF) = .special (slotOf .rA) := rfl
  have hd : decode ⟨0xA0000002, 0x7241FFFFFFFFFFFF, 0⟩ = .ok (.getname 2 0x7241FFFFFFFFFFFF) := rfl
  have hs : slotOf .rA = 21 := by unfold slotOf; rw [h]; rfl
  simp only [ask, step, portTurn, State.present, hd, exec, execGetname, hn, hs]
  decide

/-- Section 2.10's state before its RESET. -/
def state210 : State := (((withBytes 0x10 [0x44]).writeReg 9 0x99).writeSlot 3 0x33).writePc 0xFFFFFFFFFFFFFFFD

/-- Section 2.10: memory and `USED` survive RESET. -/
theorem test_reset :
    after (fun t => (t.readReg 9, t.readSlot 3, t.pc)) state210 0xB0000000 0 0 = some (0, 0, 0) ∧
    after (fun t => (t.mem, t.used)) state210 0xB0000000 0 0 = some ([(0x10, 0x44)], [0x10]) := by decide

theorem test_getpc : ask (State.reset.writePc 0x100) 0xC0000000 0 0 = some (.val 0x100) := by decide

/-- Section 2.10: the low 64 bits; no alignment. -/
theorem test_setpc :
    after State.pc State.reset 0xD0000000 0 0x10000000000000100 = some 0x100 ∧
    after State.pc State.reset 0xD0000000 0 0xFFFFFFFFFFFFFFFD = some 0xFFFFFFFFFFFFFFFD := by decide

/-- Section 2.11: "00AB", "123", "0", "A". -/
theorem test_fmthex :
    ask State.reset 0xE0000004 0 0x100000000000000AB = some (.str [0x30, 0x30, 0x41, 0x42]) ∧
    ask State.reset 0xE0000002 0 0x123 = some (.str [0x31, 0x32, 0x33]) ∧
    ask State.reset 0xE0000000 0 0 = some (.str [0x30]) ∧ ask State.reset 0xE0000000 0 10 = some (.str [0x41]) := by
  decide

/-- Section 2.12: "-123", "42", "0", and the most negative number. -/
theorem test_fmtsgn :
    ask State.reset 0xF0000000 0 0xFFFFFFFFFFFFFF85 = some (.str [0x2D, 0x31, 0x32, 0x33]) ∧
    ask State.reset 0xF0000000 0 0x2A = some (.str [0x34, 0x32]) ∧ ask State.reset 0xF0000000 0 0 = some (.str [0x30]) ∧
    ask State.reset 0xF0000000 0 0x8000000000000000 =
      some (.str [0x2D, 0x39, 0x32, 0x32, 0x33, 0x33, 0x37, 0x32, 0x30, 0x33, 0x36, 0x38, 0x35, 0x34, 0x37, 0x37, 0x35, 0x38,
        0x30, 0x38]) := by decide

/-- Section 2.1's column for 1005, and the top address. -/
theorem test_alignDown :
    alignDown 0x3ED .wyde = 0x3EC ∧ alignDown 0x3ED .tetra = 0x3EC ∧ alignDown 0x3ED .octa = 0x3E8 ∧
    alignDown 0x3ED .highTetra = 0x3EC ∧ alignDown 0xFFFFFFFFFFFFFFFF .octa = 0xFFFFFFFFFFFFFFF8 := by decide

/-- Functional-form indices of R66 and R130 that have no encoding are errors, not refusals; such a digit count is refused (U11). -/
theorem test_functional_numbers :
    (Call.getReg .notInteger).denotes = .error .outOfRangeIndex ∧ (Call.setSpecialReg (.integer (-1)) 5).denotes = .error .outOfRangeIndex ∧
    (Call.getReg (.integer 255)).denotes = .command (.getreg 255) ∧
    (Call.formatHex (-1) .notInteger).denotes = .outside (.digitsNotNatural .notInteger) := ⟨rfl, rfl, rfl, rfl⟩

/-- The script line of R75 and section E5. -/
theorem test_script_line : scriptLine (.read .highTetra false 1005) = "READ.H 1005" := by decide

/-! ### Witnesses: states and operands that meet the hypotheses of the obligations -/

/-- A state that meets the invariant: bytes listed, a zero written, registers set. -/
def busy : State := (((withBytes 0x100 [0x80, 0x7F, 0xFF, 0x00]).storeByte 5 0).writeReg 255 9).writePc 3

theorem witness_HardResetGivesPowerOn : (busy.withPort [.hardReset, .command ⟨0, 0, 0⟩]).port = .hardReset :: [.command ⟨0, 0, 0⟩] :=
  rfl

theorem witness_IdleBlockKeepsState : busy.port = [] := rfl

theorem witness_StepPerformsDecodedCommand :
    (busy.present ⟨0x600000FF, 0, 0⟩).port = .command ⟨0x600000FF, 0, 0⟩ :: [] ∧ decode ⟨0x600000FF, 0, 0⟩ = .ok (.getreg 255) :=
  ⟨rfl, rfl⟩

/-- Each clause: READ and WRITE with the first and the last reserved selector, and a step that is refused. -/
theorem witness_OnlyReservedWidthsRefused :
    (Request.op ⟨0x0A000000, 0, 0⟩ = 0x0 ∧ 5 ≤ (Request.wsel ⟨0x0A000000, 0, 0⟩).toNat) ∧
    (Request.op ⟨0x1E000000, 0, 0⟩ = 0x1 ∧ 5 ≤ (Request.wsel ⟨0x1E000000, 0, 0⟩).toNat) ∧
    ¬ 5 ≤ (Request.wsel ⟨0x08000000, 0, 0⟩).toNat ∧
    step (busy.present ⟨0x0A000000, 0, 0⟩) = .refused (.reservedEncoding (.readWidth 5)) :=
  ⟨by decide, by decide, by decide, rfl⟩

theorem witness_DecodeEncodeRoundTrip :
    (Instr.setreg 65535 (2 ^ 128 - 1)).wellFormed 128 = true ∧ (Instr.write .highTetra (BitVec.allOnes 64) (2 ^ 64 - 1)).wellFormed 64 = true ∧
    (Instr.getname 65535 (BitVec.allOnes 64)).wellFormed 64 = true := by decide

theorem witness_EncodeDecodeDrivesUnused : decode ⟨0x1700ABCD, 0x20, 3⟩ = .ok (.write .octa 0x20 3) := rfl

/-- Each clause: two different values, or name operands, that the hypothesis puts together. -/
theorem witness_UnusedFieldsIgnored :
    storedQuantity .byte 0x1FF = storedQuantity .byte 0xFF ∧
    storedQuantity .highTetra 0x1234567800000000 = storedQuantity .highTetra 0x112345678FFFFFFFF ∧
    0x1CD % 2 ^ 8 = 0xCD % 2 ^ 8 ∧ (2 ^ 64 + 5) % 2 ^ 64 = 5 % 2 ^ 64 ∧
    (0x7241000000000000 : Addr).toNat / 2 ^ (64 - 8 * 2) = (0x7241FFFFFFFFFFFF : Addr).toNat / 2 ^ (64 - 8 * 2) := by decide

theorem witness_StepKeepsInv : busy.Inv ∧ ∃ t, step (busy.present ⟨0x16000000, 0x103, 7⟩) = .next t :=
  ⟨by decide, _, rfl⟩

theorem witness_UnusedAddressReadsZero : busy.Inv ∧ ¬ busy.isUsed 0x104 ∧ busy.isUsed 0x103 ∧ busy.isUsed 5 := by
  unfold State.isUsed; decide

/-- The operation code hypotheses of the per-command statements, each met with unused fields driven non-zero. -/
theorem witness_operation_codes :
    Request.op ⟨0x09FFFFFF, 0, 0⟩ = 0x0 ∧ Request.op ⟨0x16FFFFFF, 0, 0⟩ = 0x1 ∧ Request.op ⟨0x2FFFFFFF, 0, 0⟩ = 0x2 ∧
    Request.op ⟨0x3FFFFFFF, 0, 0⟩ = 0x3 ∧ Request.op ⟨0x4FFFFFFF, 0, 0⟩ = 0x4 ∧ Request.op ⟨0x5FFFFFFF, 0, 0⟩ = 0x5 ∧
    Request.op ⟨0x6FFFFFFF, 0, 0⟩ = 0x6 ∧ Request.op ⟨0x7FFFFFFF, 0, 0⟩ = 0x7 ∧ Request.op ⟨0x8FFFFFFF, 0, 0⟩ = 0x8 ∧
    Request.op ⟨0x9FFFFFFF, 0, 0⟩ = 0x9 ∧ Request.op ⟨0xAFFFFFFF, 0, 0⟩ = 0xA ∧ Request.op ⟨0xBFFFFFFF, 0, 0⟩ = 0xB ∧
    Request.op ⟨0xCFFFFFFF, 0, 0⟩ = 0xC ∧ Request.op ⟨0xDFFFFFFF, 0, 0⟩ = 0xD ∧ Request.op ⟨0xEFFFFFFF, 0, 0⟩ = 0xE ∧
    Request.op ⟨0xFFFFFFFF, 0, 0⟩ = 0xF := by decide

/-- READ: the width hypothesis, and both sides of the sign test at its boundary. -/
theorem witness_ReadAnswersTranslatedValue :
    Request.op ⟨0x09000000, 0x100, 0⟩ = 0x0 ∧ Request.wsel ⟨0x09000000, 0x100, 0⟩ = selOfWidth .highTetra ∧
    Request.wsel ⟨0x03000000, 0x100, 0⟩ = selOfWidth .wyde ∧
    bigEndian mem22 0x100 1 = 2 ^ (8 * 1 - 1) ∧ bigEndian mem22 0x101 1 = 2 ^ (8 * 1 - 1) - 1 := by decide

/-- WRITE: the width hypothesis, and the addresses at the edges of the bytes it stores. -/
theorem witness_WriteStoresBigEndianBytes :
    Request.op ⟨0x16000000, 0x207, 0⟩ = 0x1 ∧ Request.wsel ⟨0x16000000, 0x207, 0⟩ = selOfWidth .octa ∧
    covers .octa 0x207 0x200 ∧ covers .octa 0x207 0x207 ∧ ¬ covers .octa 0x207 0x1FF ∧ ¬ covers .octa 0x207 0x208 ∧
    covers .octa 0xFFFFFFFFFFFFFFFF 0xFFFFFFFFFFFFFFFF ∧ ¬ covers .octa 0xFFFFFFFFFFFFFFFF 0 := by decide

theorem witness_WritebStoresLowByte : (0x12 : Addr) ≠ 0x11 := by decide

theorem witness_UsedListsAddressesAscending : busy.Inv ∧ busy.used.length = 5 := by decide

theorem witness_MisalignedAccessRoundsDown : alignDown 0x103 .octa = alignDown 0x107 .octa ∧ (0x103 : Addr) ≠ 0x107 := by decide

theorem witness_OctaBytesMostSignificantFirst : 0 < 8 ∧ 7 < 8 := by decide

/-- Both clauses, at the first and the last byte of an octa read over a wyde written at its second byte pair. -/
theorem witness_MixedWidthsComposeByBytes :
    Width.octa ≠ .highTetra ∧ 7 < ew .octa ∧ covers .wyde 0x403 (alignDown 0x400 .octa + BitVec.ofNat 64 2) ∧
    covers .wyde 0x403 (alignDown 0x400 .octa + BitVec.ofNat 64 3) ∧ ¬ covers .wyde 0x403 (alignDown 0x400 .octa + BitVec.ofNat 64 1) ∧
    ¬ covers .wyde 0x403 (alignDown 0x400 .octa + BitVec.ofNat 64 4) ∧ ¬ covers .wyde 0x403 (alignDown 0x400 .octa + BitVec.ofNat 64 0) ∧
    ¬ covers .wyde 0x403 (alignDown 0x400 .octa + BitVec.ofNat 64 7) := by decide

/-- A history whose commands a 128-bit port can carry, a failing one among them. -/
theorem witness_histories :
    ∀ i ∈ [Instr.write .octa 1000 7, .clear, .writeb 5 0, .setreg 256 1, .setreg 255 (2 ^ 64 + 5), .reset, .setpc 3],
      i.wellFormed 128 = true := by decide

theorem witness_UsedIsWrittenSinceClear : State.reset.used = [] := rfl

/-- The indices at the edges of the two register spaces. -/
theorem witness_register_indices : 255 < 256 ∧ ¬ 255 < 255 ∧ 31 < 32 ∧ ¬ 31 < 31 ∧ (254 : Fin 256) ≠ 255 ∧ (30 : Fin 32) ≠ 31 := by
  decide

/-- A string that the designator reader rejects is no designator. -/
theorem not_designator {cs : List Byte} (h : designatorIndex cs = none) (i : Fin 256) : ¬ isDesignator (0x24 :: cs) i := by
  rintro ⟨ds, hd, he⟩
  injection he with _ he
  rw [(designatorIndex_some cs i).2 ⟨ds, hd, he⟩] at h
  cases h

/-- A name for each clause: the designators `$0` and `$255` and the mnemonics `rA` and `rZZ`. -/
theorem witness_names :
    isDesignator [0x24, 0x30] 0 ∧ isDesignator [0x24, 0x32, 0x35, 0x35] 255 ∧ [0x72, 0x41] = mnemonicName .rA ∧
    [0x72, 0x5A, 0x5A] = mnemonicName .rZZ := by
  refine ⟨⟨[0], ?_, rfl⟩, ⟨[2, 5, 5], ?_, rfl⟩, rfl, rfl⟩ <;> unfold isNumeral digitsNumber <;> decide

/-- Names for the unknown clause: `$256`, the first number out of range, and `$007`, a non-canonical numeral. -/
theorem witness_names_unknown_numeral :
    ((∀ i, ¬ isDesignator [0x24, 0x32, 0x35, 0x36] i) ∧ ∀ m, [0x24, 0x32, 0x35, 0x36] ≠ mnemonicName m) ∧
    ((∀ i, ¬ isDesignator [0x24, 0x30, 0x30, 0x37] i) ∧ ∀ m, [0x24, 0x30, 0x30, 0x37] ≠ mnemonicName m) := by
  refine ⟨⟨not_designator (by decide), ?_⟩, ⟨not_designator (by decide), ?_⟩⟩ <;> (intro m; cases m <;> decide)

/-- Names for the unknown clause: the empty name, `rzz` in the wrong case, and `$22222222`, of nine bytes. -/
theorem witness_names_unknown_other :
    ((∀ i, ¬ isDesignator [] i) ∧ ∀ m, [] ≠ mnemonicName m) ∧
    ((∀ i, ¬ isDesignator [0x72, 0x7A, 0x7A] i) ∧ ∀ m, [0x72, 0x7A, 0x7A] ≠ mnemonicName m) ∧
    ((∀ i, ¬ isDesignator (0x24 :: List.replicate 8 0x32) i) ∧ ∀ m, 0x24 :: List.replicate 8 0x32 ≠ mnemonicName m) := by
  refine ⟨⟨?_, ?_⟩, ⟨?_, ?_⟩, ⟨not_designator (by decide), ?_⟩⟩
  · rintro i ⟨ds, -, h⟩; cases h
  · intro m; cases m <;> decide
  · rintro i ⟨ds, -, h⟩; cases h
  · intro m; cases m <;> decide
  · intro m; cases m <;> decide

/-- Each clause of the name operand: eight bytes and the longest and last byte, and nine. -/
theorem witness_NameOperandUnpacks :
    [0x24, 0x32, 0x35, 0x35, 0x35, 0x35, 0x35, (0x35 : Byte)].length ≤ 8 ∧ 7 < 8 ∧ 8 ≤ 8 ∧ 8 < 9 := by decide

theorem witness_ErrorLeavesStateUnchanged :
    exec (.setreg 256 7) busy = .next { busy with rsp := some (.err .outOfRangeIndex) } ∧
    exec (.getname 9 0) busy = .next { busy with rsp := some (.err .unknownRegister) } := ⟨rfl, rfl⟩

/-- Both causes, at the first index out of range and at a name one byte too long. -/
theorem witness_ErrorsHaveExactCauses :
    255 < 256 ∧ 31 < 32 ∧ 8 < 9 ∧ resolveName (nameBytes 4 0x2433303000000000) = .unknown := ⟨by decide, by decide, by decide, rfl⟩

/-- A command that fails, before another. -/
theorem witness_ErrorsAreNotSticky :
    ∃ t, exec (.getspec 32) busy = .next t ∧ t.rsp = some (.err .outOfRangeIndex) ∧ ∃ u, exec (.getspec 31) t = .next u :=
  ⟨_, rfl, rfl, _, rfl⟩

/-- One of the nine reading commands, for the hypothesis that the command is one of them. -/
theorem witness_ReadingCommandsChangeNothing : ∃ r, exec (.read .octa true 0x100) busy = .next { busy with rsp := some r } := ⟨_, rfl⟩

theorem witness_OnlySetpcAndResetsChangePc :
    ∃ t, step (busy.present ⟨0xD0000000, 0, 8⟩) = .next t ∧ t.pc ≠ (busy.present ⟨0xD0000000, 0, 8⟩).pc := ⟨_, rfl, by decide⟩

/-- A register and a slot that a step changes. -/
theorem witness_OnlyRegisterWritesChangeRegisters :
    (∃ t, step (busy.present ⟨0x700000FF, 0, 8⟩) = .next t ∧ t.readReg 255 ≠ (busy.present ⟨0x700000FF, 0, 8⟩).readReg 255) ∧
    ∃ t, step (busy.present ⟨0x9000001F, 0, 8⟩) = .next t ∧ t.readSlot 31 ≠ (busy.present ⟨0x9000001F, 0, 8⟩).readSlot 31 :=
  ⟨⟨_, rfl, by decide⟩, ⟨_, rfl, by decide⟩⟩

/-- A byte that a step changes, an address that joins `USED`, and one that leaves it. -/
theorem witness_OnlyStoresChangeMemory :
    (∃ t, step (busy.present ⟨0x30000000, 0x100, 8⟩) = .next t ∧ t.byteAt 0x100 ≠ busy.byteAt 0x100) ∧
    (∃ t, step (busy.present ⟨0x30000000, 9, 0⟩) = .next t ∧ ¬ (t.isUsed 9 ↔ busy.isUsed 9)) ∧
    ∃ t, step (busy.present ⟨0x50000000, 0, 0⟩) = .next t ∧ busy.isUsed 5 ∧ ¬ t.isUsed 5 := by
  unfold State.isUsed
  exact ⟨⟨_, rfl, by decide⟩, ⟨_, rfl, by decide⟩, ⟨_, rfl, by decide, by decide⟩⟩

theorem witness_UsedSetInfluencesOnlyUsed : Instr.write .octa 0x100 7 ≠ .used := by decide

/-- Two blocks, the second of which steps. -/
theorem witness_BlocksShareNothing :
    [State.reset, busy.present ⟨0xC0000000, 0, 0⟩][1]? = some (busy.present ⟨0xC0000000, 0, 0⟩) ∧
    (∃ t, step (busy.present ⟨0xC0000000, 0, 0⟩) = .next t) ∧ 0 ≠ 1 := ⟨rfl, ⟨_, rfl⟩, by decide⟩

/-- Each clause: a width without the flag, one of the three the flag does not go with, and widths outside the enumeration. -/
theorem witness_FunctionalWidthsNormalise :
    (Width.octa ≠ .highTetra ∧ Width.octa ≠ .tetra) ∧ Width.tetra ≠ .highTetra ∧
    (WidthArg.bytes 3 ≠ .highTetra ∧ ∀ w : Width, WidthArg.bytes 3 ≠ .bytes (ew w)) ∧
    (WidthArg.other ≠ .highTetra ∧ ∀ w : Width, WidthArg.other ≠ .bytes (ew w)) :=
  ⟨by decide, by decide, ⟨by decide, fun w => by cases w <;> decide⟩, ⟨by decide, fun w => by cases w <;> decide⟩⟩

/-- Each clause: the first index above the range, a negative one, and one that is no integer. -/
theorem witness_FunctionalIndexOutOfRange :
    (∀ n : Fin 256, NumberArg.integer 256 ≠ .integer n.val) ∧ (∀ n : Fin 256, NumberArg.integer (-1) ≠ .integer n.val) ∧
    (∀ n : Fin 32, NumberArg.integer 32 ≠ .integer n.val) ∧ (∀ n : Fin 256, NumberArg.notInteger ≠ .integer n.val) ∧
    ∀ n : Fin 32, NumberArg.notInteger ≠ .integer n.val := by
  refine ⟨?_, ?_, ?_, ?_, ?_⟩ <;> intro n h
  · injection h; omega
  · injection h; omega
  · injection h; omega
  · cases h
  · cases h

theorem witness_PresentedIntegerReducesMod64 : 64 ≤ 64 ∧ 64 ≤ Config.VW := by decide

/-- USED in a state that meets the invariant, with addresses to list. -/
theorem witness_ResponseLinesCarryCodes : busy.Inv ∧ busy.used ≠ [] := by decide

theorem witness_LoadAndStoreExpand : (3 : Fin 256) ≠ 4 ∧ (3 : Fin 32) ≠ 4 ∧ 255 < 256 ∧ 31 < 32 := by decide

/-- A value with bits above 63 set, for the hypothesis that its low 64 bits are a given word. -/
theorem witness_HelpersArePure : BitVec.ofNat 64 (2 ^ 64 + 5) = 5 := by decide

/-- A command that is not CLEAR, in a state with used addresses; and CLEAR itself. -/
theorem witness_ClearEmptiesMemory :
    Instr.reset ≠ .clear ∧ (∃ u, exec .reset busy = .next u) ∧ busy.isUsed 5 ∧ ∃ t, exec .clear busy = .next t := by
  unfold State.isUsed
  exact ⟨by decide, ⟨_, rfl⟩, by decide, ⟨_, rfl⟩⟩

end Sys2Proof.Tests
end

section
/-! PROOFS, spec/20_memory.md. Alignment (O13, O21), the high-tetra read (O25) and the width arguments of the functional form (O56). -/

namespace Sys2Proof.Machine

/-! ### Alignment, bit by bit -/

/-- Every effective width is a power of two, which is what makes `ew(W) - 1` a mask of low bits (R31). -/
theorem ew_eq_two_pow_log2 (w : Width) : ew w = 2 ^ Nat.log2 (ew w) := by cases w <;> decide

/-- Clearing the low `n` bits, bit by bit. -/
theorem getLsbD_and_not_mask (a : Addr) (n k : Nat) :
    (a &&& ~~~(BitVec.ofNat 64 (2 ^ n - 1))).getLsbD k = (a.getLsbD k && decide (n ≤ k)) := by
  rw [BitVec.getLsbD_and, BitVec.getLsbD_not, BitVec.getLsbD_ofNat, Nat.testBit_two_pow_sub_one]
  rcases Nat.lt_or_ge k 64 with hk | hk
  · simp [hk, ← decide_not]
  · simp [BitVec.getLsbD_of_ge a k hk]

/-- `alignDown` keeps bit `k` exactly when `k` is at least `log2(ew(W))` (R31). -/
theorem getLsbD_alignDown (a : Addr) (w : Width) (k : Nat) :
    (alignDown a w).getLsbD k = (a.getLsbD k && decide (Nat.log2 (ew w) ≤ k)) := by
  have h := getLsbD_and_not_mask a (Nat.log2 (ew w)) k
  rwa [← ew_eq_two_pow_log2] at h

/-- Settles O13: the numeric form is `alignDown_toNat`, the bits are `getLsbD_alignDown`. -/
theorem alignDownClearsLowBits : Obligations.AlignDownClearsLowBits :=
  fun a w => ⟨alignDown_toNat a w, rfl, getLsbD_alignDown a w, by cases w <;> rfl⟩

/-! ### An access depends on its address through `alignDown` alone -/

theorem exec_read (w : Width) (sg : Bool) (a : Addr) (s : State) :
    exec (.read w sg a) s = .next { s with rsp := some (.val (bytesToValue w sg (s.loadBytes (alignDown a w).toNat (ew w)))) } :=
  exec_eq ..

theorem exec_read_congr {w : Width} {a b : Addr} (h : alignDown a w = alignDown b w) (sg : Bool) (s : State) :
    exec (.read w sg a) s = exec (.read w sg b) s := by
  rw [exec_read, exec_read, h]

theorem exec_write_congr {w : Width} {a b : Addr} (h : alignDown a w = alignDown b w) (v : Nat) (s : State) :
    exec (.write w a v) s = exec (.write w b v) s := by
  simp only [exec_eq, effect, answer, h]

/-- WRITEB leaves the value's low byte at the address as it is (R83). -/
theorem writeb_byteAt (a : Addr) (v : Nat) (s : State) : (effect (.writeb a v) s).byteAt a = BitVec.ofNat 8 v := by
  rw [effect_byteAt]
  simp [writesByte]

/-- Settles O21: READ and WRITE see the address through `alignDown`, which is idempotent; READB and WRITEB see it whole. -/
theorem misalignedAccessRoundsDown : Obligations.MisalignedAccessRoundsDown := by
  intro w a s
  have hal : alignDown a w = alignDown (alignDown a w) w := (alignDown_alignDown a w).symm
  exact ⟨fun sg => exec_read_congr hal sg s, fun v => exec_write_congr hal v s,
    fun b hb sg v => ⟨exec_read_congr hb.symm sg s, exec_write_congr hb.symm v s⟩,
    exec_eq .., fun v => ⟨_, exec_eq .., writeb_byteAt a v s⟩⟩

/-! ### The high-tetra read -/

/-- The translator's high-tetra case is its unsigned tetra case shifted, with `signed` ignored (R35, R37). -/
theorem bytesToValue_highTetra (sg : Bool) (bytes : List Byte) :
    bytesToValue .highTetra sg bytes = bytesToValue .tetra false bytes <<< 32 := by
  simp [bytesToValue]

/-- HIGH_TETRA and TETRA load the same four bytes (R30, R31). -/
theorem loadBytes_highTetra (s : State) (a : Addr) :
    s.loadBytes (alignDown a .highTetra).toNat (ew .highTetra) = s.loadBytes (alignDown a .tetra).toNat (ew .tetra) := rfl

/-- Settles O25: the same bytes are loaded, and the translator shifts what the unsigned tetra read answers. -/
theorem highTetraReadIsShiftedTetra : Obligations.HighTetraReadIsShiftedTetra :=
  fun a s => ⟨_, exec_read .tetra false a s, fun sg => by rw [exec_read, loadBytes_highTetra, bytesToValue_highTetra]⟩

/-! ### The width arguments of the functional form -/

theorem accessWidth_highTetra (ht : Bool) : accessWidth .highTetra ht = .ok .highTetra := by cases ht <;> rfl

theorem accessWidth_tetra_flag : accessWidth (.bytes 4) true = .ok .highTetra := rfl

/-- A width without the flag is that width. -/
theorem accessWidth_bytes_ew {w : Width} (h : w ≠ .highTetra) : accessWidth (.bytes (ew w)) false = .ok w := by
  cases w with
  | highTetra => exact absurd rfl h
  | byte | wyde | tetra | octa => rfl

/-- The flag goes with no width but TETRA (R41). -/
theorem accessWidth_bytes_ew_flag {w : Width} (h : w ≠ .highTetra) (ht : w ≠ .tetra) :
    accessWidth (.bytes (ew w)) true = .error (.highTetraWithWidth w) := by
  cases w with
  | highTetra => exact absurd rfl h
  | tetra => exact absurd rfl ht
  | byte | wyde | octa => rfl

/-- A width outside the enumeration is refused, with the flag or without (R30). -/
theorem accessWidth_outside {arg : WidthArg} (ht : Bool) (h : arg ≠ .highTetra) (hw : ∀ w : Width, arg ≠ .bytes (ew w)) :
    accessWidth arg ht = .error (.widthOutsideEnumeration arg) := by
  cases arg with
  | highTetra => exact absurd rfl h
  | other => cases ht <;> rfl
  | bytes n =>
    have h1 : n ≠ 1 := fun e => hw .byte (congrArg _ e)
    have h2 : n ≠ 2 := fun e => hw .wyde (congrArg _ e)
    have h4 : n ≠ 4 := fun e => hw .tetra (congrArg _ e)
    have h8 : n ≠ 8 := fun e => hw .octa (congrArg _ e)
    cases ht <;> simp [accessWidth, h1, h2, h4, h8]

section
variable {arg : WidthArg} {ht : Bool} (a : Addr) (sg : Bool) (v : Int) (s : State)

theorem perform_read_of_ok {w : Width} (h : accessWidth arg ht = .ok w) :
    (Call.read a arg sg ht).perform s = exec (.read w sg a) s := by
  simp only [Call.perform, Call.denotes, h]

theorem perform_write_of_ok {w : Width} (h : accessWidth arg ht = .ok w) :
    (Call.write a arg v ht).perform s = exec (.write w a (presented v)) s := by
  simp only [Call.perform, Call.denotes, h]

theorem perform_read_of_error {r : Refusal} (h : accessWidth arg ht = .error r) :
    (Call.read a arg sg ht).perform s = .refused r := by
  simp only [Call.perform, Call.denotes, h]

theorem perform_write_of_error {r : Refusal} (h : accessWidth arg ht = .error r) :
    (Call.write a arg v ht).perform s = .refused r := by
  simp only [Call.perform, Call.denotes, h]

end

/-- Settles O56: `accessWidth` by cases, carried through the calls that use it. -/
theorem functionalWidthsNormalise : Obligations.FunctionalWidthsNormalise := by
  intro a sg ht v s
  refine ⟨perform_read_of_ok a sg s (accessWidth_highTetra ht), perform_read_of_ok a sg s accessWidth_tetra_flag,
    perform_write_of_ok a v s (accessWidth_highTetra ht), perform_write_of_ok a v s accessWidth_tetra_flag,
    fun w hw => ⟨?_, ?_, fun hwt => ?_⟩, fun arg harg hout => ?_⟩
  · exact perform_read_of_ok a sg s (accessWidth_bytes_ew hw)
  · exact perform_write_of_ok a v s (accessWidth_bytes_ew hw)
  · have hflag := accessWidth_bytes_ew_flag hw hwt
    exact ⟨perform_read_of_error a sg s hflag, perform_write_of_error a v s hflag⟩
  · have hrefused := accessWidth_outside ht harg hout
    exact ⟨perform_read_of_error a sg s hrefused, perform_write_of_error a v s hrefused⟩

end Sys2Proof.Machine
end

section
/-! PROOFS, spec/30_encoding.md. The reserved encodings (O5) and the unused fields (O9): what the decoder looks at. -/

namespace Sys2Proof

variable {r : Request}

/-! ### Which encodings are rejected (R69) -/

theorem decode_read_reserved (h : r.op = 0x0) (hw : 5 ≤ r.wsel.toNat) : decode r = .error (.readWidth r.wsel) := by
  rw [decode_read h, (widthOfSel_eq_none _).2 hw]

theorem decode_write_reserved (h : r.op = 0x1) (hw : 5 ≤ r.wsel.toNat) : decode r = .error (.writeWidth r.wsel) := by
  rw [decode_write h, (widthOfSel_eq_none _).2 hw]

/-- A request the decoder rejects is a READ or a WRITE whose selector names no width: every other row gives a command. -/
theorem reserved_of_decode_error {e : Rejection} (he : decode r = .error e) :
    (r.op = 0x0 ∨ r.op = 0x1) ∧ 5 ≤ r.wsel.toNat := by
  have no_command {i : Instr} (hi : decode r = .ok i) : (r.op = 0x0 ∨ r.op = 0x1) ∧ 5 ≤ r.wsel.toNat := by
    rw [hi] at he
    cases he
  rcases op_cases r.op with h | h | h | h | h | h | h | h | h | h | h | h | h | h | h | h
  · refine ⟨.inl h, (widthOfSel_eq_none _).1 ?_⟩
    cases hw : widthOfSel r.wsel with
    | none => rfl
    | some w => simp [decode_read h, hw] at he
  · refine ⟨.inr h, (widthOfSel_eq_none _).1 ?_⟩
    cases hw : widthOfSel r.wsel with
    | none => rfl
    | some w => simp [decode_write h, hw] at he
  · exact no_command (decode_readb h)
  · exact no_command (decode_writeb h)
  · exact no_command (decode_used h)
  · exact no_command (decode_clear h)
  · exact no_command (decode_getreg h)
  · exact no_command (decode_setreg h)
  · exact no_command (decode_getspec h)
  · exact no_command (decode_setspec h)
  · exact no_command (decode_getname h)
  · exact no_command (decode_reset h)
  · exact no_command (decode_getpc h)
  · exact no_command (decode_setpc h)
  · exact no_command (decode_fmthex h)
  · exact no_command (decode_fmtsgn h)

theorem decode_error_iff : (∃ e, decode r = .error e) ↔ (r.op = 0x0 ∨ r.op = 0x1) ∧ 5 ≤ r.wsel.toNat := by
  constructor
  · rintro ⟨e, he⟩
    exact reserved_of_decode_error he
  · rintro ⟨h | h, hw⟩
    · exact ⟨_, decode_read_reserved h hw⟩
    · exact ⟨_, decode_write_reserved h hw⟩

/-! ### A request with its unused fields driven to 0, row by row of R67's table -/

/-- The row of R67's table that belongs to an operation code; the table has one for each of the sixteen. -/
def usedRow (o : BitVec 4) : BitVec 32 × Bool × Bool := usedFields[o.toNat]'o.isLt

theorem driven_eq (r : Request) :
    r.driven = ⟨r.cw &&& (usedRow r.op).1, if (usedRow r.op).2.1 then r.addr else 0,
      if (usedRow r.op).2.2 then r.wdata else 0⟩ := by
  have hrow : usedFields[r.op.toNat]? = some (usedRow r.op) := List.getElem?_eq_getElem r.op.isLt
  rw [Request.driven, hrow]

/-- Every row uses the whole operation code (R67). -/
theorem usedRow_op (o : BitVec 4) : (usedRow o).1.extractLsb' 28 4 = BitVec.allOnes 4 := by
  revert o; decide

@[simp] theorem op_driven (r : Request) : r.driven.op = r.op := by
  rw [driven_eq, Request.op, BitVec.extractLsb'_and, usedRow_op, BitVec.and_allOnes, Request.op]

theorem wsel_driven (h : (usedRow r.op).1.extractLsb' 25 3 = BitVec.allOnes 3) : r.driven.wsel = r.wsel := by
  rw [driven_eq, Request.wsel, BitVec.extractLsb'_and, h, BitVec.and_allOnes, Request.wsel]

theorem sg_driven (h : (usedRow r.op).1.getLsbD 24 = true) : r.driven.sg = r.sg := by
  rw [driven_eq, Request.sg, BitVec.getLsbD_and, h, Bool.and_true, Request.sg]

theorem idx_driven (h : (usedRow r.op).1.extractLsb' 0 16 = BitVec.allOnes 16) : r.driven.idx = r.idx := by
  rw [driven_eq, Request.idx, BitVec.extractLsb'_and, h, BitVec.and_allOnes, Request.idx]

theorem addr_driven (h : (usedRow r.op).2.1 = true) : r.driven.addr = r.addr := by
  rw [driven_eq]; exact if_pos h

theorem wdata_driven (h : (usedRow r.op).2.2 = true) : r.driven.wdata = r.wdata := by
  rw [driven_eq]; exact if_pos h

/-- The decoder looks at no field R67 marks "-" (R68): what each row reads, its driven request still holds. -/
theorem decode_driven (r : Request) : decode r.driven = decode r := by
  have hop := op_driven r
  rcases op_cases r.op with h | h | h | h | h | h | h | h | h | h | h | h | h | h | h | h <;> rw [h] at hop
  · rw [decode_read hop, decode_read h, wsel_driven (by rw [h]; decide), sg_driven (by rw [h]; decide),
      addr_driven (by rw [h]; rfl)]
  · rw [decode_write hop, decode_write h, wsel_driven (by rw [h]; decide), addr_driven (by rw [h]; rfl),
      wdata_driven (by rw [h]; rfl)]
  · rw [decode_readb hop, decode_readb h, addr_driven (by rw [h]; rfl)]
  · rw [decode_writeb hop, decode_writeb h, addr_driven (by rw [h]; rfl), wdata_driven (by rw [h]; rfl)]
  · rw [decode_used hop, decode_used h]
  · rw [decode_clear hop, decode_clear h]
  · rw [decode_getreg hop, decode_getreg h, idx_driven (by rw [h]; decide)]
  · rw [decode_setreg hop, decode_setreg h, idx_driven (by rw [h]; decide), wdata_driven (by rw [h]; rfl)]
  · rw [decode_getspec hop, decode_getspec h, idx_driven (by rw [h]; decide)]
  · rw [decode_setspec hop, decode_setspec h, idx_driven (by rw [h]; decide), wdata_driven (by rw [h]; rfl)]
  · rw [decode_getname hop, decode_getname h, idx_driven (by rw [h]; decide), addr_driven (by rw [h]; rfl)]
  · rw [decode_reset hop, decode_reset h]
  · rw [decode_getpc hop, decode_getpc h]
  · rw [decode_setpc hop, decode_setpc h, wdata_driven (by rw [h]; rfl)]
  · rw [decode_fmthex hop, decode_fmthex h, idx_driven (by rw [h]; decide), wdata_driven (by rw [h]; rfl)]
  · rw [decode_fmtsgn hop, decode_fmtsgn h, wdata_driven (by rw [h]; rfl)]

/-! ### The bits `cw[23:16]` -/

/-- A byte placed at bits 23:16 leaves every other bit 0. -/
theorem getLsbD_placed (u : BitVec 8) {k : Nat} (h : k < 16 ∨ 24 ≤ k) :
    (u.setWidth 32 <<< 16).getLsbD k = false := by
  rw [BitVec.getLsbD_shiftLeft, BitVec.getLsbD_setWidth]
  rcases h with h | h
  · simp [h]
  · simp [BitVec.getLsbD_of_ge u (k - 16) (by omega)]

/-- Changing bits 23:16 of a command word changes no field that lies outside them. -/
theorem extractLsb'_xor_placed (cw : BitVec 32) (u : BitVec 8) {start len : Nat} (h : start + len ≤ 16 ∨ 24 ≤ start) :
    (cw ^^^ (u.setWidth 32 <<< 16)).extractLsb' start len = cw.extractLsb' start len := by
  refine BitVec.eq_of_getLsbD_eq fun k hk => ?_
  rw [BitVec.getLsbD_extractLsb', BitVec.getLsbD_extractLsb', BitVec.getLsbD_xor, getLsbD_placed u (by omega), Bool.xor_false]

/-- The decoder does not look at `cw[23:16]`, which belong to no field of R62 (R68). -/
theorem decode_xor_placed (r : Request) (u : BitVec 8) :
    decode { r with cw := r.cw ^^^ (u.setWidth 32 <<< 16) } = decode r := by
  have hop : Request.op { r with cw := r.cw ^^^ (u.setWidth 32 <<< 16) } = r.op :=
    extractLsb'_xor_placed r.cw u (by decide)
  have hwsel : Request.wsel { r with cw := r.cw ^^^ (u.setWidth 32 <<< 16) } = r.wsel :=
    extractLsb'_xor_placed r.cw u (by decide)
  have hsg : Request.sg { r with cw := r.cw ^^^ (u.setWidth 32 <<< 16) } = r.sg := by
    rw [Request.sg, BitVec.getLsbD_xor, getLsbD_placed u (by decide), Bool.xor_false, Request.sg]
  have hidx : Request.idx { r with cw := r.cw ^^^ (u.setWidth 32 <<< 16) } = r.idx :=
    congrArg BitVec.toNat (extractLsb'_xor_placed r.cw u (by decide))
  simp only [decode, hop, hwsel, hsg, hidx]

end Sys2Proof

namespace Sys2Proof.Machine

/-! ### Reserved encodings at the port -/

theorem step_of_decode_error {s : State} {r : Request} {rest : List PortEvent} {e : Rejection}
    (hp : s.port = .command r :: rest) (he : decode r = .error e) : step s = .refused (.reservedEncoding e) := by
  simp only [step, portTurn, hp, he]

/-- A step refuses only a command the decoder rejects: an idle step, a hard reset and a decoded command go on. -/
theorem decode_error_of_step_refused {s : State} {q : Refusal} (hq : step s = .refused q) :
    ∃ r rest e, s.port = .command r :: rest ∧ decode r = .error e := by
  rcases step_cases s with ⟨-, hs⟩ | ⟨rest, -, hs⟩ | ⟨r, rest, i, -, -, hs⟩ | ⟨r, rest, e, hp, he, -⟩
  · rw [hs] at hq; cases hq
  · rw [hs] at hq; cases hq
  · rw [hs, exec_eq] at hq; cases hq
  · exact ⟨r, rest, e, hp, he⟩

/-- Settles O5: `decode_error_iff` for the decoder, and a step refuses exactly what the decoder rejects. -/
theorem onlyReservedWidthsRefused : Obligations.OnlyReservedWidthsRefused := by
  refine ⟨fun r => decode_error_iff, fun s r rest hp hw => ⟨fun h => ?_, fun h => ?_⟩, fun s q hq => ?_⟩
  · exact step_of_decode_error hp (decode_read_reserved h hw)
  · exact step_of_decode_error hp (decode_write_reserved h hw)
  · obtain ⟨r, rest, e, hp, he⟩ := decode_error_of_step_refused hq
    exact ⟨r, rest, hp, reserved_of_decode_error he⟩

/-! ### The bits of an operand that a command uses -/

/-- Two values with the same stored quantity are stored as the same bytes (R38, R39). -/
theorem valueToBytes_congr {w : Width} {v v' : Nat} (h : storedQuantity w v = storedQuantity w v') :
    valueToBytes w v = valueToBytes w v' :=
  combine_inj (by rw [valueToBytes_length, valueToBytes_length]) (by rw [combine_valueToBytes, combine_valueToBytes, h])

theorem lowByte_congr {v v' : Nat} (h : v % 2 ^ 8 = v' % 2 ^ 8) : lowByte v = lowByte v' :=
  BitVec.eq_of_toNat_eq (by rw [lowByte_toNat, lowByte_toNat, h])

theorem low64_congr {v v' : Nat} (h : v % 2 ^ 64 = v' % 2 ^ 64) : low64 v = low64 v' :=
  BitVec.eq_of_toNat_eq (by rw [low64_toNat, low64_toNat, h])

/-- A name of at most eight bytes is the same when the operand's top `8 * len` bits are: byte `k` lies above the rest (R72). -/
theorem nameBytes_congr {len : Nat} (hlen : len ≤ 8) {c c' : Addr}
    (h : c.toNat / 2 ^ (64 - 8 * len) = c'.toNat / 2 ^ (64 - 8 * len)) : nameBytes len c = nameBytes len c' := by
  refine List.map_congr_left fun k hk => BitVec.eq_of_toNat_eq ?_
  have hk := List.mem_range.1 hk
  have hshift : 56 - 8 * k = (64 - 8 * len) + (8 * (len - 1 - k)) := by omega
  rw [BitVec.extractLsb'_toNat, BitVec.extractLsb'_toNat, hshift, Nat.shiftRight_eq_div_pow, Nat.shiftRight_eq_div_pow,
    Nat.pow_add, ← Nat.div_div_eq_div_mul, ← Nat.div_div_eq_div_mul, h]

/-- GETNAME depends on its operand through the name's bytes alone; a name longer than the port carries has none (R72, R105). -/
theorem exec_getname_congr {len : Nat} {c c' : Addr} (h : len ≤ 8 → nameBytes len c = nameBytes len c') (s : State) :
    exec (.getname len c) s = exec (.getname len c') s := by
  rw [exec_eq, exec_eq]
  rcases Nat.lt_or_ge 8 len with hlen | hlen
  · simp only [effect, answer, hlen, if_true]
  · simp only [effect, answer, h hlen]

/-- Settles O9: `decode_driven` and `decode_xor_placed` for the fields, and each command's use of its value or name operand. -/
theorem unusedFieldsIgnored : Obligations.UnusedFieldsIgnored := by
  refine ⟨decode_driven, decode_xor_placed, fun w a v v' s h => ?_, fun a v v' s h => ?_, fun n v v' s h => ?_,
    fun len c c' s h => ?_⟩
  · simp only [exec_eq, effect, answer, valueToBytes_congr h]
  · simp only [exec_eq, effect, answer, lowByte_congr h]
  · simp only [exec_eq, effect, answer, low64_congr h, and_self]
  · exact exec_getname_congr (fun hlen => nameBytes_congr hlen h) s

end Sys2Proof.Machine
end

section
/-! PROOFS, spec/30_encoding.md. The response lines (O47) and the pseudo-commands (O59). -/

namespace Sys2Proof.Machine

/-! ### Answers and effects of the register commands, by index -/

@[simp] theorem answer_getreg (i : Fin 256) (s : State) : answer (.getreg i) s = .val (s.readReg i) := dif_pos i.isLt

theorem answer_getreg_of_ge {idx : Nat} (h : 256 ≤ idx) (s : State) : answer (.getreg idx) s = .err .outOfRangeIndex :=
  dif_neg (Nat.not_lt.2 h)

@[simp] theorem answer_getspec (j : Fin 32) (s : State) : answer (.getspec j) s = .val (s.readSlot j) := dif_pos j.isLt

theorem answer_getspec_of_ge {idx : Nat} (h : 32 ≤ idx) (s : State) : answer (.getspec idx) s = .err .outOfRangeIndex :=
  dif_neg (Nat.not_lt.2 h)

theorem answer_setreg_of_ge {idx : Nat} (h : 256 ≤ idx) (v : Nat) (s : State) :
    answer (.setreg idx v) s = .err .outOfRangeIndex := if_neg (Nat.not_lt.2 h)

theorem answer_setspec_of_ge {idx : Nat} (h : 32 ≤ idx) (v : Nat) (s : State) :
    answer (.setspec idx v) s = .err .outOfRangeIndex := if_neg (Nat.not_lt.2 h)

@[simp] theorem effect_setreg (i : Fin 256) (v : Nat) (s : State) : effect (.setreg i v) s = s.writeReg i (low64 v) :=
  dif_pos i.isLt

@[simp] theorem effect_setspec (j : Fin 32) (v : Nat) (s : State) : effect (.setspec j v) s = s.writeSlot j (low64 v) :=
  dif_pos j.isLt

/-- A command that answers an error leaves the state as it was but for the response (R134). -/
theorem exec_of_answer_err {i : Instr} {s : State} {e : ErrorKind} (h : answer i s = .err e) :
    exec i s = .next { s with rsp := some (.err e) } := by
  rw [exec_eq, effect_of_answer_err h, h]

/-! ### A register command answers its value or acknowledgement, or its one error (R100 to R105) -/

theorem answer_getreg_cases (idx : Nat) (s : State) :
    (∃ v, answer (.getreg idx) s = .val v) ∨ answer (.getreg idx) s = .err .outOfRangeIndex := by
  rcases Nat.lt_or_ge idx 256 with h | h
  · exact .inl ⟨_, answer_getreg ⟨idx, h⟩ s⟩
  · exact .inr (answer_getreg_of_ge h s)

theorem answer_getspec_cases (idx : Nat) (s : State) :
    (∃ v, answer (.getspec idx) s = .val v) ∨ answer (.getspec idx) s = .err .outOfRangeIndex := by
  rcases Nat.lt_or_ge idx 32 with h | h
  · exact .inl ⟨_, answer_getspec ⟨idx, h⟩ s⟩
  · exact .inr (answer_getspec_of_ge h s)

theorem answer_setreg_cases (idx v : Nat) (s : State) :
    answer (.setreg idx v) s = .ack ∨ answer (.setreg idx v) s = .err .outOfRangeIndex := by
  rcases Nat.lt_or_ge idx 256 with h | h
  · exact .inl (if_pos h)
  · exact .inr (answer_setreg_of_ge h v s)

theorem answer_setspec_cases (idx v : Nat) (s : State) :
    answer (.setspec idx v) s = .ack ∨ answer (.setspec idx v) s = .err .outOfRangeIndex := by
  rcases Nat.lt_or_ge idx 32 with h | h
  · exact .inl (if_pos h)
  · exact .inr (answer_setspec_of_ge h v s)

theorem answer_getname_cases (len : Nat) (c : Addr) (s : State) :
    (∃ v, answer (.getname len c) s = .val v) ∨ answer (.getname len c) s = .err .unknownRegister := by
  rcases Nat.lt_or_ge 8 len with hlen | hlen
  · exact .inr (if_pos hlen)
  · simp only [answer, if_neg (Nat.not_lt.2 hlen)]
    cases resolveName (nameBytes len c) with
    | general i => exact .inl ⟨_, rfl⟩
    | special j => exact .inl ⟨_, rfl⟩
    | unknown => exact .inr rfl

/-! ### The kinds each command answers (R70) -/

theorem kind_toNat_le (r : Response) : r.kind.toNat ≤ 5 := by
  cases r with
  | ack | val | byte | addrs | str | err => simp [Response.kind]

section
variable {r : Response} {e : ErrorKind}

theorem kind_of_value_or_error (h : (∃ v, r = .val v) ∨ r = .err e) : r.kind = 1 ∨ r.kind = 5 := by
  obtain ⟨v, rfl⟩ | rfl := h
  · exact .inl rfl
  · exact .inr rfl

theorem kind_of_ack_or_error (h : r = .ack ∨ r = .err e) : r.kind = 0 ∨ r.kind = 5 := by
  obtain rfl | rfl := h
  · exact .inl rfl
  · exact .inr rfl

end

/-- Where the used set holds 64-bit addresses, USED answers them as they are (R84). -/
theorem seq_used {s : State} (h : usedOk s.used) : (answer .used s).seq = s.used := by
  have hid : ∀ a ∈ s.used, (BitVec.toNat ∘ BitVec.ofNat 64) a = a := fun a ha => by
    rw [Function.comp_apply, BitVec.toNat_ofNat, Nat.mod_eq_of_lt (h.2 a ha)]
  simp only [answer, Response.seq, List.map_map]
  exact List.map_congr_left hid |>.trans (List.map_id _)

/-- A byte stands unchanged at the low end of the data line (R70). -/
theorem data_byte_toNat (b : Byte) : (Response.byte b).data.toNat = b.toNat := by
  simp only [Response.data, BitVec.toNat_setWidth]
  have := b.isLt
  omega

/-- Settles O47: the codes are the definition's, and each command's answer is of the kinds of its row. -/
theorem responseLinesCarryCodes : Obligations.ResponseLinesCarryCodes := by
  refine ⟨rfl, rfl, fun _ => ⟨rfl, rfl⟩, fun b => ⟨rfl, data_byte_toNat b⟩, fun _ => ⟨rfl, rfl⟩, fun _ => ⟨rfl, rfl⟩,
    rfl, rfl, rfl, rfl, fun _ => rfl, kind_toNat_le, fun i s => ⟨_, _, exec_eq i s, rfl, ?_⟩⟩
  cases i with
  | write | writeb | clear | reset | setpc | read | getpc | readb | fmthex | fmtsgn => rfl
  | used => exact ⟨rfl, fun hinv => by rw [seq_used hinv.2.1]; exact hinv.2.1.1⟩
  | getreg idx => exact kind_of_value_or_error (answer_getreg_cases idx s)
  | getspec idx => exact kind_of_value_or_error (answer_getspec_cases idx s)
  | getname len c => exact kind_of_value_or_error (answer_getname_cases len c s)
  | setreg idx v => exact kind_of_ack_or_error (answer_setreg_cases idx v s)
  | setspec idx v => exact kind_of_ack_or_error (answer_setspec_cases idx v s)

/-! ### Pseudo-commands (R77) -/

@[simp] theorem low64_of_toNat (v : Word) : low64 v.toNat = v := (BitVec.ofNat_toNat 64 v).trans (BitVec.setWidth_eq v)

/-- An expansion with a second command runs it after the first one's effect. -/
theorem perform_of_second {p : Pseudo} {s : State} {i : Instr} (h : p.second (some (answer p.first s)) = some i) :
    p.perform s = exec i (effect p.first s) := by
  simp only [Pseudo.perform, exec_eq p.first, h, exec_setRsp]

/-- An expansion without a value to pass on ends with the first command. -/
theorem perform_of_no_second {p : Pseudo} {s : State} (h : p.second (some (answer p.first s)) = none) :
    p.perform s = exec p.first s := by
  simp only [Pseudo.perform, exec_eq p.first, h]

section
variable (w : Width) (sg : Bool) (idx : Nat) (a : Addr) (s : State)

/-- What READ answers. -/
def readValue : Word := bytesToValue w sg (s.loadBytes (alignDown a w).toNat (ew w))

theorem perform_load : (Pseudo.load w sg idx a).perform s = exec (.setreg idx (readValue w sg a s).toNat) s :=
  perform_of_second rfl

theorem perform_loadspec : (Pseudo.loadspec w sg idx a).perform s = exec (.setspec idx (readValue w sg a s).toNat) s :=
  perform_of_second rfl

theorem perform_store (i : Fin 256) : (Pseudo.store w i a).perform s = exec (.write w a (s.readReg i).toNat) s :=
  perform_of_second (by simp only [Pseudo.first, answer_getreg, Pseudo.second])

theorem perform_storespec (j : Fin 32) : (Pseudo.storespec w j a).perform s = exec (.write w a (s.readSlot j).toNat) s :=
  perform_of_second (by simp only [Pseudo.first, answer_getspec, Pseudo.second])

variable {idx}

theorem perform_store_of_ge (h : 256 ≤ idx) : (Pseudo.store w idx a).perform s = exec (.getreg idx) s :=
  perform_of_no_second (by simp only [Pseudo.first, answer_getreg_of_ge h, Pseudo.second])

theorem perform_storespec_of_ge (h : 32 ≤ idx) : (Pseudo.storespec w idx a).perform s = exec (.getspec idx) s :=
  perform_of_no_second (by simp only [Pseudo.first, answer_getspec_of_ge h, Pseudo.second])

end

/-- SETREG in range leaves the value in its register and keeps everything else but the response (R101). -/
theorem exec_setreg_frame (i : Fin 256) (v : Word) (s : State) :
    ∃ t : State, exec (.setreg i v.toNat) s = .next t ∧
      t.readReg i = v ∧ s.sameStore t ∧ t.sr = s.sr ∧ t.pc = s.pc ∧ ∀ k, k ≠ i → t.readReg k = s.readReg k := by
  have hread (k : Fin 256) : (effect (.setreg i v.toNat) s).readReg k = if k = i then v else s.readReg k := by simp
  refine ⟨_, exec_eq .., (hread i).trans (if_pos rfl), ?_, ?_, ?_, fun k hk => (hread k).trans (if_neg hk)⟩
  · simp [State.sameStore]
  · simp
  · simp

/-- SETSPEC in range leaves the value in its slot and keeps everything else but the response (R103). -/
theorem exec_setspec_frame (j : Fin 32) (v : Word) (s : State) :
    ∃ t : State, exec (.setspec j v.toNat) s = .next t ∧
      t.readSlot j = v ∧ s.sameStore t ∧ t.x = s.x ∧ t.pc = s.pc ∧ ∀ k, k ≠ j → t.readSlot k = s.readSlot k := by
  have hread (k : Fin 32) : (effect (.setspec j v.toNat) s).readSlot k = if k = j then v else s.readSlot k := by simp
  refine ⟨_, exec_eq .., (hread j).trans (if_pos rfl), ?_, ?_, ?_, fun k hk => (hread k).trans (if_neg hk)⟩
  · simp [State.sameStore]
  · simp
  · simp

/-- FULLRESET is RESET, then CLEAR in the state RESET leaves. -/
theorem perform_fullreset (s : State) :
    ∃ t u : State, exec .reset s = .next t ∧ exec .clear t = .next u ∧ Pseudo.perform .fullreset s = .next u :=
  ⟨_, _, exec_eq .., exec_eq .., rfl⟩

/-- Settles O59: each expansion is its second command after the first, or stops at a first command that answers an error. -/
theorem loadAndStoreExpand : Obligations.LoadAndStoreExpand := by
  intro w sg a s
  refine ⟨⟨readValue w sg a s, exec_read .., fun i => ?_, fun j => ?_⟩, fun i => ?_, fun j => ?_, fun idx h => ⟨?_, ?_⟩,
    fun idx h => ⟨?_, ?_⟩, perform_fullreset s⟩
  · rw [perform_load]
    exact exec_setreg_frame i _ s
  · rw [perform_loadspec]
    exact exec_setspec_frame j _ s
  · exact ⟨_, (perform_store w a s i).trans (exec_eq ..), exec_eq ..⟩
  · exact ⟨_, (perform_storespec w a s j).trans (exec_eq ..), exec_eq ..⟩
  · rw [perform_load]
    exact exec_of_answer_err (answer_setreg_of_ge h ..)
  · rw [perform_store_of_ge w a s h]
    exact exec_of_answer_err (answer_getreg_of_ge h s)
  · rw [perform_loadspec]
    exact exec_of_answer_err (answer_setspec_of_ge h ..)
  · rw [perform_storespec_of_ge w a s h]
    exact exec_of_answer_err (answer_getspec_of_ge h s)

end Sys2Proof.Machine
end

section
/-! PROOFS, spec/40_memory_ops.md. READ's translated value (O15), WRITE's stored bytes (O16) and CLEAR (O20). -/

namespace Sys2Proof.Machine

/-! ### The translator's value as a number (R34 to R37) -/

/-- Sign extension of an `n`-byte quantity adds `2^64 - 2^(8n)` exactly when its top bit is 1 (R36). -/
theorem signExtend_ofNat_toNat {n u : Nat} (hn : n ≤ 8) (hu : u < 2 ^ (8 * n)) :
    ((BitVec.ofNat (8 * n) u).signExtend 64).toNat =
      if 2 ^ (8 * n - 1) ≤ u then u + 2 ^ 64 - 2 ^ (8 * n) else u := by
  have hle : 2 ^ (8 * n) ≤ 2 ^ 64 := Nat.pow_le_pow_right (by decide) (by omega)
  have hval : (BitVec.ofNat (8 * n) u).toNat = u := by rw [BitVec.toNat_ofNat, Nat.mod_eq_of_lt hu]
  rw [BitVec.toNat_signExtend, BitVec.toNat_setWidth, BitVec.msb_eq_decide, hval, Nat.mod_eq_of_lt (by omega)]
  by_cases htop : 2 ^ (8 * n - 1) ≤ u
  · simp only [htop, decide_true, if_true]
    omega
  · simp [htop]

/-- The value read from as many bytes as the width has: shifted for HIGH_TETRA whatever `sg`, else sign- or zero-extended. -/
theorem bytesToValue_toNat {w : Width} {bytes : List Byte} (hlen : bytes.length = ew w) (sg : Bool) :
    (bytesToValue w sg bytes).toNat =
      if w = .highTetra then combine bytes * 2 ^ 32
      else if sg = true ∧ 2 ^ (8 * ew w - 1) ≤ combine bytes then combine bytes + 2 ^ 64 - 2 ^ (8 * ew w)
      else combine bytes := by
  have hu : combine bytes < 2 ^ (8 * ew w) := by
    rw [Nat.pow_mul, ← hlen]
    exact combine_lt bytes
  have h64 : combine bytes < 2 ^ 64 := Nat.lt_of_lt_of_le hu (Nat.pow_le_pow_right (by decide) (by have := ew_le w; omega))
  unfold bytesToValue
  by_cases hw : w = .highTetra
  · subst hw
    rw [if_pos rfl, if_pos rfl, BitVec.toNat_shiftLeft, BitVec.toNat_ofNat, Nat.mod_eq_of_lt h64, Nat.shiftLeft_eq]
    simp only [ew] at hu
    omega
  · rw [if_neg hw, if_neg hw]
    cases sg with
    | true => simpa using signExtend_ofNat_toNat (ew_le w) hu
    | false => simpa using Nat.mod_eq_of_lt h64

/-- Settles O15: the loaded bytes combine to the big-endian sum, and the translator's value of it is `bytesToValue_toNat`. -/
theorem readAnswersTranslatedValue : Obligations.ReadAnswersTranslatedValue := by
  refine ⟨fun r w hop hsel => ?_, fun w sg a s => ⟨_, exec_read w sg a s, ?_⟩⟩
  · rw [decode_read hop, hsel, widthOfSel_selOfWidth]
  · rw [bytesToValue_toNat (loadBytes_length ..), combine_loadBytes]

/-! ### What a WRITE stores and keeps (R81) -/

/-- A WRITE keeps every register, every slot, the program counter and what is still to come at the port. -/
theorem write_sameRegisters (w : Width) (a : Addr) (v : Nat) (s : State) : s.sameRegisters (effect (.write w a v) s) := by
  simp [State.sameRegisters, effect]

/-- Settles O16: every byte and `USED` after the WRITE are `write_byteAt` and `write_isUsed`, split on `covers`. -/
theorem writeStoresBigEndianBytes : Obligations.WriteStoresBigEndianBytes := by
  refine ⟨fun r w hop hsel => ?_, fun w a v s =>
    ⟨_, exec_eq .., rfl, write_sameRegisters w a v s, fun b hb => ⟨?_, ?_⟩, fun b hb => ⟨?_, ?_⟩⟩⟩
  · rw [decode_write hop, hsel, widthOfSel_selOfWidth]
  · exact (write_byteAt w a v s b).trans (if_pos hb)
  · exact (write_isUsed w a v s b).2 (.inl hb)
  · exact (write_byteAt w a v s b).trans (if_neg hb)
  · exact (write_isUsed w a v s b).trans (or_iff_right hb)

/-! ### Only CLEAR empties (R85) -/

/-- CLEAR alone takes an address out of `USED` (R20, R85). -/
theorem writesUse_ne_some_false {i : Instr} (h : i ≠ .clear) (a : Addr) : writesUse a i ≠ some false := by
  cases i with
  | clear => exact absurd rfl h
  | write | writeb => simp only [writesUse]; split <;> nofun
  | _ => nofun

/-- A used address stays used under every command but CLEAR. -/
theorem isUsed_effect_of_ne_clear {i : Instr} (h : i ≠ .clear) {s : State} {a : Addr} (ha : s.isUsed a) :
    (effect i s).isUsed a := by
  rw [effect_isUsed]
  cases hw : writesUse a i with
  | none => exact decide_eq_true ha
  | some b =>
    cases b with
    | true => rfl
    | false => exact absurd hw (writesUse_ne_some_false h a)

/-- Settles O20: CLEAR's effect is `clearStore`; what the other commands do to `USED` is `isUsed_effect_of_ne_clear`. -/
theorem clearEmptiesMemory : Obligations.ClearEmptiesMemory := by
  refine ⟨fun r => decode_clear, fun s => ⟨_, exec_eq .clear s, rfl, ⟨rfl, rfl, rfl, rfl⟩,
    fun a => ⟨rfl, List.not_mem_nil⟩, rfl, rfl, exec_eq .., fun i u a hi hu ha => ?_⟩⟩
  rw [exec_next hu]
  exact isUsed_effect_of_ne_clear hi ha

end Sys2Proof.Machine
end

section
/-! PROOFS, spec/41_register_ops.md. The register commands by index (O30 to O33), RESET (O38) and the program counter (O39, O40). -/

namespace Sys2Proof.Machine

/-! ### Where a register command in range ends (R100 to R103) -/

section
variable (v : Nat) (s : State)

theorem exec_getreg (i : Fin 256) : exec (.getreg i) s = .next { s with rsp := some (.val (s.readReg i)) } := by
  rw [exec_eq, answer_getreg]
  rfl

theorem exec_getspec (j : Fin 32) : exec (.getspec j) s = .next { s with rsp := some (.val (s.readSlot j)) } := by
  rw [exec_eq, answer_getspec]
  rfl

@[simp] theorem answer_setreg (i : Fin 256) : answer (.setreg i v) s = .ack := if_pos i.isLt

@[simp] theorem answer_setspec (j : Fin 32) : answer (.setspec j v) s = .ack := if_pos j.isLt

theorem exec_setreg (i : Fin 256) :
    exec (.setreg i v) s = .next { s.writeReg i (low64 v) with rsp := some .ack } := by
  rw [exec_eq, effect_setreg, answer_setreg]

theorem exec_setspec (j : Fin 32) :
    exec (.setspec j v) s = .next { s.writeSlot j (low64 v) with rsp := some .ack } := by
  rw [exec_eq, effect_setspec, answer_setspec]

/-- The register written with the low 64 bits holds the value modulo 2^64 (R12, R101). -/
theorem readReg_writeReg_low64_toNat (i : Fin 256) : ((s.writeReg i (low64 v)).readReg i).toNat = v % 2 ^ 64 := by
  rw [State.readReg_writeReg, if_pos rfl, low64_toNat]

/-- The slot written with the low 64 bits holds the value modulo 2^64 (R12, R103). -/
theorem readSlot_writeSlot_low64_toNat (j : Fin 32) : ((s.writeSlot j (low64 v)).readSlot j).toNat = v % 2 ^ 64 := by
  rw [State.readSlot_writeSlot, if_pos rfl, low64_toNat]

end

/-- Settles O31: in range the state is `writeReg`'s and the frame its field lemmas; out of range SETREG answers an error. -/
theorem setregStoresLow64 : Obligations.SetregStoresLow64 := by
  refine ⟨fun r => decode_setreg, fun v s => ⟨fun i => ?_, fun idx h => ?_⟩⟩
  · exact ⟨_, exec_setreg v s i, rfl, ⟨rfl, rfl, rfl⟩, rfl, rfl, readReg_writeReg_low64_toNat v s i,
      fun k hk => (State.readReg_writeReg ..).trans (if_neg hk)⟩
  · exact exec_of_answer_err (answer_setreg_of_ge h v s)

/-- Settles O33: in range the state is `writeSlot`'s and the frame its field lemmas; out of range SETSPEC answers an error. -/
theorem setspecStoresLow64 : Obligations.SetspecStoresLow64 := by
  refine ⟨fun r => decode_setspec, fun v s => ⟨fun j => ?_, fun idx h => ?_⟩⟩
  · exact ⟨_, exec_setspec v s j, rfl, ⟨rfl, rfl, rfl⟩, rfl, rfl, readSlot_writeSlot_low64_toNat v s j,
      fun k hk => (State.readSlot_writeSlot ..).trans (if_neg hk)⟩
  · exact exec_of_answer_err (answer_setspec_of_ge h v s)

/-- Settles O30: GETREG in range has no effect but its answer, and answers an error above. -/
theorem getregAnswersRegister : Obligations.GetregAnswersRegister :=
  ⟨fun _ => decode_getreg, fun s => ⟨exec_getreg s, fun _ h => exec_of_answer_err (answer_getreg_of_ge h s)⟩⟩

/-- Settles O32: GETSPEC in range has no effect but its answer, and answers an error above. -/
theorem getspecAnswersSlot : Obligations.GetspecAnswersSlot :=
  ⟨fun _ => decode_getspec, fun s => ⟨exec_getspec s, fun _ h => exec_of_answer_err (answer_getspec_of_ge h s)⟩⟩

/-! ### RESET and the program counter (R106 to R108) -/

theorem exec_reset (s : State) : exec .reset s = .next { s.zeroRegisters with rsp := some .ack } := exec_eq ..

theorem exec_getpc (s : State) : exec .getpc s = .next { s with rsp := some (.val s.pc) } := exec_eq ..

theorem exec_setpc (v : Nat) (s : State) : exec (.setpc v) s = .next { s.writePc (low64 v) with rsp := some .ack } :=
  exec_eq ..

@[simp] theorem State.zeroRegisters_zeroRegisters (s : State) : s.zeroRegisters.zeroRegisters = s.zeroRegisters := rfl

/-- RESET in the state a RESET leaves changes nothing, the response included (R106). -/
theorem exec_reset_idem {s t : State} (h : exec .reset s = .next t) : exec .reset t = .next t := by
  rw [exec_next h, exec_setRsp, exec_reset]
  simp only [effect, answer, State.zeroRegisters_zeroRegisters]

/-- Settles O38: RESET's effect is `zeroRegisters`, which is idempotent. -/
theorem resetZeroesRegisters : Obligations.ResetZeroesRegisters :=
  ⟨fun _ => decode_reset, fun s => ⟨_, exec_reset s, rfl, ⟨rfl, rfl, rfl⟩, State.readReg_zeroRegisters s,
    State.readSlot_zeroRegisters s, rfl, exec_reset_idem (exec_reset s)⟩⟩

/-- Settles O39: GETPC has no effect but its answer. -/
theorem getpcAnswersPc : Obligations.GetpcAnswersPc := ⟨fun _ => decode_getpc, exec_getpc⟩

/-- Settles O40: SETPC's effect is `writePc` of the low 64 bits, and GETPC answers the program counter of any state. -/
theorem setpcStoresLow64 : Obligations.SetpcStoresLow64 :=
  ⟨fun _ => decode_setpc, fun v s =>
    ⟨_, exec_setpc v s, rfl, ⟨rfl, rfl, rfl⟩, rfl, rfl, low64_toNat v, exec_getpc _⟩⟩

end Sys2Proof.Machine
end

section
/-! PROOFS, spec/42_formatting.md. The formatting helpers are pure (O43). -/

namespace Sys2Proof.Machine

/-- FMTHEX has no effect but its answer, which takes the value through its low 64 bits alone (R120). -/
theorem exec_fmthex (digits v : Nat) (s : State) :
    exec (.fmthex digits v) s = .next { s with rsp := some (.str (padTo digits (hexNumeral (low64 v)))) } := exec_eq ..

/-- FMTSGN has no effect but its answer, which takes the value through its low 64 bits alone (R121). -/
theorem exec_fmtsgn (v : Nat) (s : State) :
    exec (.fmtsgn v) s = .next { s with rsp := some (.str (signedNumeral (low64 v))) } := exec_eq ..

/-- Settles O43: the answer is a function of the value's low 64 bits, and of `digits`, and does not mention the state. -/
theorem helpersArePure : Obligations.HelpersArePure :=
  ⟨fun digits v => ⟨.str (padTo digits (hexNumeral v)), fun v' s hv => hv ▸ exec_fmthex digits v' s⟩,
    fun v => ⟨.str (signedNumeral v), fun v' s hv => hv ▸ exec_fmtsgn v' s⟩⟩

end Sys2Proof.Machine
end

section
/-! PROOFS, spec/60_exceptions.md. An error changes nothing (O44), and each error has exactly its causes (O45). -/

namespace Sys2Proof.Machine

/-- Settles O44: the response is the command's answer, and a command that answers an error has no effect. -/
theorem errorLeavesStateUnchanged : Obligations.ErrorLeavesStateUnchanged := by
  intro i s t e hexec herr
  have hanswer : answer i s = .err e := by
    rw [exec_next hexec] at herr
    exact Option.some.inj herr
  exact Host.Outcome.next.inj (hexec.symm.trans (exec_of_answer_err hanswer))

/-! ### The error each failing command answers, and when (R131, R132) -/

section
variable (idx v len : Nat) (c : Addr) (s : State) (e : ErrorKind)

/-- A response that is no error below the bound and the index error from it on is an error exactly from the bound on. -/
theorem eq_err_iff_of_bound {n idx : Nat} {r : Response} {e : ErrorKind} (hlt : idx < n → r ≠ .err e)
    (hge : n ≤ idx → r = .err .outOfRangeIndex) : r = .err e ↔ n ≤ idx ∧ e = .outOfRangeIndex := by
  rcases Nat.lt_or_ge idx n with h | h
  · simp [hlt h, Nat.not_le.2 h]
  · simp [hge h, h, eq_comm]

theorem answer_getreg_eq_err_iff : answer (.getreg idx) s = .err e ↔ 255 < idx ∧ e = .outOfRangeIndex :=
  eq_err_iff_of_bound (fun h => by simp [answer_getreg ⟨idx, h⟩ s]) (answer_getreg_of_ge · s)

theorem answer_setreg_eq_err_iff : answer (.setreg idx v) s = .err e ↔ 255 < idx ∧ e = .outOfRangeIndex :=
  eq_err_iff_of_bound (fun h => by simp [answer_setreg v s ⟨idx, h⟩]) (answer_setreg_of_ge · v s)

theorem answer_getspec_eq_err_iff : answer (.getspec idx) s = .err e ↔ 31 < idx ∧ e = .outOfRangeIndex :=
  eq_err_iff_of_bound (fun h => by simp [answer_getspec ⟨idx, h⟩ s]) (answer_getspec_of_ge · s)

theorem answer_setspec_eq_err_iff : answer (.setspec idx v) s = .err e ↔ 31 < idx ∧ e = .outOfRangeIndex :=
  eq_err_iff_of_bound (fun h => by simp [answer_setspec v s ⟨idx, h⟩]) (answer_setspec_of_ge · v s)

theorem answer_getname_eq_err_iff : answer (.getname len c) s = .err e ↔
    (8 < len ∨ resolveName (nameBytes len c) = .unknown) ∧ e = .unknownRegister := by
  rcases Nat.lt_or_ge 8 len with hlen | hlen
  · simp [answer, hlen, eq_comm]
  · simp only [answer, if_neg (Nat.not_lt.2 hlen)]
    cases resolveName (nameBytes len c) with
    | general i => simp [Nat.not_lt.2 hlen]
    | special j => simp [Nat.not_lt.2 hlen]
    | unknown => simp [eq_comm]

end

/-! ### Each error over all commands (R130 to R133) -/

/-- An out-of-range index is raised by the four register commands above their last index, and by no other command. -/
theorem answer_eq_outOfRangeIndex_iff (i : Instr) (s : State) : answer i s = .err .outOfRangeIndex ↔
    (∃ idx, 255 < idx ∧ (i = .getreg idx ∨ ∃ v, i = .setreg idx v)) ∨
    (∃ idx, 31 < idx ∧ (i = .getspec idx ∨ ∃ v, i = .setspec idx v)) := by
  cases i with
  | getreg idx => simp [answer_getreg_eq_err_iff]
  | setreg idx v => simp [answer_setreg_eq_err_iff]
  | getspec idx => simp [answer_getspec_eq_err_iff]
  | setspec idx v => simp [answer_setspec_eq_err_iff]
  | getname len c => simp [answer_getname_eq_err_iff]
  | read | write | readb | writeb | used | clear | reset | getpc | setpc | fmthex | fmtsgn => simp [answer]

/-- An unknown register is raised by GETNAME for a name that is too long or denotes nothing, and by no other command. -/
theorem answer_eq_unknownRegister_iff (i : Instr) (s : State) : answer i s = .err .unknownRegister ↔
    ∃ len c, i = .getname len c ∧ (8 < len ∨ resolveName (nameBytes len c) = .unknown) := by
  cases i with
  | getname len c => simp [answer_getname_eq_err_iff]
  | getreg idx => simp [answer_getreg_eq_err_iff]
  | setreg idx v => simp [answer_setreg_eq_err_iff]
  | getspec idx => simp [answer_getspec_eq_err_iff]
  | setspec idx v => simp [answer_setspec_eq_err_iff]
  | read | write | readb | writeb | used | clear | reset | getpc | setpc | fmthex | fmtsgn => simp [answer]

/-- Settles O45: the response is the command's answer, and each error is answered exactly under its causes. -/
theorem errorsHaveExactCauses : Obligations.ErrorsHaveExactCauses := fun i s =>
  ⟨_, exec_eq i s, Option.some_inj.trans (answer_eq_outOfRangeIndex_iff i s),
    Option.some_inj.trans (answer_eq_unknownRegister_iff i s)⟩

end Sys2Proof.Machine
end

section
/-! PROOFS, spec/30_encoding.md. The encoder against the decoder: both directions (O7, O8), words written out (O6), and the command
that a step performs (O4). -/

namespace Sys2Proof

/-! ### Decoding what the encoder builds (R63, R67) -/

/-- An index that fits its field is read back as it stands (R66). -/
theorem idx_commandWord_of_lt {idx : Nat} (h : idx < 2 ^ 16) (op : BitVec 4) (wsel : BitVec 3) (sg : Bool) (a : Addr) (v : Nat) :
    (Request.mk (commandWord op wsel sg idx) a v).idx = idx := by
  rw [idx_commandWord, Nat.mod_eq_of_lt h]

/-- The decoder reads from every encoded command the command, whatever the width of the value input. -/
theorem decode_encode {i : Instr} {vw : Nat} (h : i.wellFormed vw = true) : decode (encode i) = .ok i := by
  cases i with
  | read w sg a => rw [encode, decode_read (op_commandWord ..)]; simp
  | write w a v => rw [encode, decode_write (op_commandWord ..)]; simp
  | readb a => exact decode_readb (op_commandWord ..)
  | writeb a v => exact decode_writeb (op_commandWord ..)
  | used => exact decode_used (op_commandWord ..)
  | clear => exact decode_clear (op_commandWord ..)
  | getreg idx =>
    have hidx : idx < 2 ^ 16 := (indexFits_iff idx).1 h
    rw [encode, decode_getreg (op_commandWord ..), idx_commandWord_of_lt hidx]
  | setreg idx v =>
    have hidx : idx < 2 ^ 16 := (indexFits_iff idx).1 (Bool.and_eq_true_iff.1 h).1
    rw [encode, decode_setreg (op_commandWord ..), idx_commandWord_of_lt hidx]
  | getspec idx =>
    have hidx : idx < 2 ^ 16 := (indexFits_iff idx).1 h
    rw [encode, decode_getspec (op_commandWord ..), idx_commandWord_of_lt hidx]
  | setspec idx v =>
    have hidx : idx < 2 ^ 16 := (indexFits_iff idx).1 (Bool.and_eq_true_iff.1 h).1
    rw [encode, decode_setspec (op_commandWord ..), idx_commandWord_of_lt hidx]
  | getname len c =>
    have hlen : len < 2 ^ 16 := (indexFits_iff len).1 h
    rw [encode, decode_getname (op_commandWord ..), idx_commandWord_of_lt hlen]
  | reset => exact decode_reset (op_commandWord ..)
  | getpc => exact decode_getpc (op_commandWord ..)
  | setpc v => exact decode_setpc (op_commandWord ..)
  | fmthex digits v =>
    have hdigits : digits < 2 ^ 16 := (indexFits_iff digits).1 (Bool.and_eq_true_iff.1 h).1
    rw [encode, decode_fmthex (op_commandWord ..), idx_commandWord_of_lt hdigits]
  | fmtsgn v => exact decode_fmtsgn (op_commandWord ..)

/-- Settles O7: each row of the opcode table decodes to its command, and an index that fits its field is read as it stands. -/
theorem decodeEncodeRoundTrip : Obligations.DecodeEncodeRoundTrip := fun _ _ h => decode_encode h

/-! ### Encoding what was decoded (R67, R68) -/

/-- A command word whose bits 23:16 are 0 is the one its fields make (R62). -/
theorem commandWord_fields {c : BitVec 32} (h : c.extractLsb' 16 8 = 0) :
    commandWord (c.extractLsb' 28 4) (c.extractLsb' 25 3) (c.getLsbD 24) (c.extractLsb' 0 16).toNat = c := by
  have hbit : (c.getLsbD 24).toNat = c.toNat / 2 ^ 24 % 2 := by
    rw [BitVec.getLsbD, Nat.toNat_testBit]
  have hgap : c.toNat / 2 ^ 16 % 2 ^ 8 = 0 := by
    simpa [BitVec.extractLsb'_toNat, Nat.shiftRight_eq_div_pow] using congrArg BitVec.toNat h
  apply BitVec.eq_of_toNat_eq
  simp only [commandWord_toNat, hbit, BitVec.extractLsb'_toNat, Nat.shiftRight_eq_div_pow]
  omega

/-- No row of R67's table uses bits 23:16 (R62). -/
theorem usedRow_gap (o : BitVec 4) : (usedRow o).1.extractLsb' 16 8 = 0 := by
  revert o; decide

/-- A driven request, field by field: each field of the request where its row uses it, 0 elsewhere. -/
theorem driven_eq_fields (r : Request) :
    r.driven =
      ⟨commandWord r.op (r.wsel &&& (usedRow r.op).1.extractLsb' 25 3) (r.sg && (usedRow r.op).1.getLsbD 24)
        (r.idx &&& ((usedRow r.op).1.extractLsb' 0 16).toNat),
        if (usedRow r.op).2.1 then r.addr else 0, if (usedRow r.op).2.2 then r.wdata else 0⟩ := by
  have hgap : (r.cw &&& (usedRow r.op).1).extractLsb' 16 8 = 0 := by
    rw [BitVec.extractLsb'_and, usedRow_gap]; exact BitVec.and_zero
  have hword := commandWord_fields hgap
  rw [BitVec.extractLsb'_and, BitVec.extractLsb'_and, BitVec.extractLsb'_and, BitVec.toNat_and, BitVec.getLsbD_and,
    usedRow_op, BitVec.and_allOnes] at hword
  rw [driven_eq, ← hword]
  rfl

theorem selOfWidth_of_widthOfSel {wsel : BitVec 3} {w : Width} (h : widthOfSel wsel = some w) : selOfWidth w = wsel := by
  revert wsel w; decide

/-- A selector under the mask of a row that uses it (R67). -/
theorem sel_and_mask (x : BitVec 3) : x &&& 7#3 = x := BitVec.and_allOnes

/-- An index under the mask of a row that uses it (R67). -/
theorem idx_and_mask (r : Request) : r.idx &&& 65535 = r.idx :=
  (Nat.and_two_pow_sub_one_eq_mod r.idx 16).trans (Nat.mod_eq_of_lt (r.cw.extractLsb' 0 16).isLt)

/-- Encoding a decoded request drives its unused fields to 0 and keeps every other one, row by row of R67's table. -/
theorem encode_of_decode {r : Request} {i : Instr} (hd : decode r = .ok i) : encode i = r.driven := by
  rw [driven_eq_fields]
  rcases op_cases r.op with h | h | h | h | h | h | h | h | h | h | h | h | h | h | h | h <;> rw [h]
  · rw [decode_read h] at hd
    cases hw : widthOfSel r.wsel with
    | none => simp [hw] at hd
    | some w =>
      obtain rfl : Instr.read w r.sg r.addr = i := by simpa [hw] using hd
      simp [encode, selOfWidth_of_widthOfSel hw, usedRow, usedFields, sel_and_mask]
  · rw [decode_write h] at hd
    cases hw : widthOfSel r.wsel with
    | none => simp [hw] at hd
    | some w =>
      obtain rfl : Instr.write w r.addr r.wdata = i := by simpa [hw] using hd
      simp [encode, selOfWidth_of_widthOfSel hw, usedRow, usedFields, sel_and_mask]
  · obtain rfl := Except.ok.inj ((decode_readb h).symm.trans hd)
    simp [encode, usedRow, usedFields]
  · obtain rfl := Except.ok.inj ((decode_writeb h).symm.trans hd)
    simp [encode, usedRow, usedFields]
  · obtain rfl := Except.ok.inj ((decode_used h).symm.trans hd)
    simp [encode, usedRow, usedFields]
  · obtain rfl := Except.ok.inj ((decode_clear h).symm.trans hd)
    simp [encode, usedRow, usedFields]
  · obtain rfl := Except.ok.inj ((decode_getreg h).symm.trans hd)
    simp [encode, usedRow, usedFields, idx_and_mask]
  · obtain rfl := Except.ok.inj ((decode_setreg h).symm.trans hd)
    simp [encode, usedRow, usedFields, idx_and_mask]
  · obtain rfl := Except.ok.inj ((decode_getspec h).symm.trans hd)
    simp [encode, usedRow, usedFields, idx_and_mask]
  · obtain rfl := Except.ok.inj ((decode_setspec h).symm.trans hd)
    simp [encode, usedRow, usedFields, idx_and_mask]
  · obtain rfl := Except.ok.inj ((decode_getname h).symm.trans hd)
    simp [encode, usedRow, usedFields, idx_and_mask]
  · obtain rfl := Except.ok.inj ((decode_reset h).symm.trans hd)
    simp [encode, usedRow, usedFields]
  · obtain rfl := Except.ok.inj ((decode_getpc h).symm.trans hd)
    simp [encode, usedRow, usedFields]
  · obtain rfl := Except.ok.inj ((decode_setpc h).symm.trans hd)
    simp [encode, usedRow, usedFields]
  · obtain rfl := Except.ok.inj ((decode_fmthex h).symm.trans hd)
    simp [encode, usedRow, usedFields, idx_and_mask]
  · obtain rfl := Except.ok.inj ((decode_fmtsgn h).symm.trans hd)
    simp [encode, usedRow, usedFields]

/-- Settles O8: each row's request is rebuilt from the fields the row uses, which are those its mask keeps. -/
theorem encodeDecodeDrivesUnused : Obligations.EncodeDecodeDrivesUnused := fun _ _ hd => encode_of_decode hd

/-- Settles O6: each word's operation code picks its row, and the decoder reads the fields of that row. -/
theorem writtenOutWordsDecode : Obligations.WrittenOutWordsDecode :=
  ⟨decode_read (by decide), decode_read (by decide), decode_write (by decide), decode_setreg (by decide),
    decode_getspec (by decide), decode_getname (by decide), decode_fmthex (by decide), decode_fmtsgn (by decide)⟩

end Sys2Proof

namespace Sys2Proof.Machine

/-- A step with a command presented performs what the decoder reads, with the command taken off the port. -/
theorem step_of_decode {s : State} {r : Request} {rest : List PortEvent} {i : Instr}
    (hp : s.port = .command r :: rest) (hd : decode r = .ok i) : step s = exec i { s with port := rest } := by
  simp only [step, portTurn, hp, hd]

/-- Settles O4: the port's turn is to run the decoded command. -/
theorem stepPerformsDecodedCommand : Obligations.StepPerformsDecodedCommand := fun _ _ _ _ => step_of_decode

end Sys2Proof.Machine
end

section
/-! PROOFS, spec/10_state.md. Power-on, hard reset and waiting (O1, O2, O3), the invariant (O10, O11, O12), what a step can change
(O50, O51, O52), and blocks side by side (O55). -/

namespace Sys2Proof.Machine

/-! ### Power-on, hard reset, waiting (R25, R141, R150) -/

/-- Settles O1: power-on lists no byte and no used address, and every register and slot reads 0. -/
theorem powerOnState : Obligations.PowerOnState :=
  ⟨fun _ => rfl, fun _ => List.not_mem_nil, State.readReg_reset, State.readSlot_reset, rfl, rfl, rfl⟩

theorem step_of_hardReset {s : State} {rest : List PortEvent} (hp : s.port = .hardReset :: rest) :
    step s = .next { State.reset with port := rest } := by
  simp only [step, portTurn, hp, State.hardReset]

/-- Settles O2: the port's turn is the hard reset, which keeps nothing but the rest of the port. -/
theorem hardResetGivesPowerOn : Obligations.HardResetGivesPowerOn := fun _ _ => step_of_hardReset

/-- Settles O3: the port's turn is to wait. -/
theorem idleBlockKeepsState : Obligations.IdleBlockKeepsState := by
  intro s hp
  simp only [step, portTurn, hp]

/-! ### The invariant (R19 to R21) -/

theorem inv_reset : State.reset.Inv := clearStore_inv State.reset

/-- Settles O10: the power-on store is a cleared one. -/
theorem invHoldsAtPowerOn : Obligations.InvHoldsAtPowerOn := inv_reset

/-- Settles O11: waiting keeps the state, hard reset gives power-on, and a command keeps the invariant by `effect_inv`, which the
port and the response do not enter. -/
theorem stepKeepsInv : Obligations.StepKeepsInv := by
  intro s t hinv hstep
  rcases step_cases s with ⟨-, hs⟩ | ⟨rest, -, hs⟩ | ⟨r, rest, i, -, -, hs⟩ | ⟨r, rest, e, -, -, hs⟩
  · obtain rfl := Host.Outcome.next.inj (hs.symm.trans hstep)
    exact hinv
  · obtain rfl := Host.Outcome.next.inj (hs.symm.trans hstep)
    exact inv_reset
  · rw [exec_next (hs.symm.trans hstep)]
    exact effect_inv (s := { s with port := rest }) hinv i
  · cases hs.symm.trans hstep

/-- Where the invariant holds, a byte that is not 0 is at a used address (R21). -/
theorem isUsed_of_byteAt_ne_zero {s : State} (h : s.Inv) {a : Addr} (ha : s.byteAt a ≠ 0) : s.isUsed a :=
  h.2.2 _ (Memory.mem_of_read_ne ha)

theorem writeb_isUsed (a : Addr) (v : Nat) (s : State) : (effect (.writeb a v) s).isUsed a := by
  rw [effect_isUsed]
  simp [writesUse]

/-- Settles O12: the invariant lists every non-zero byte's address; a 0 stored by WRITEB puts a zero address into `USED`. -/
theorem unusedAddressReadsZero : Obligations.UnusedAddressReadsZero :=
  ⟨fun _ _ hinv ha => not_not.1 (mt (isUsed_of_byteAt_ne_zero hinv) ha),
    fun a => ⟨_, exec_eq .., writeb_byteAt a 0 _, writeb_isUsed a 0 _⟩⟩

/-! ### Observations of a state, and the commands that write them -/

/-- What is observed of a state is what the last command that writes it left: a command changes it as `writes` says, and neither the
port nor the response enters it. -/
structure Tracks {α : Type} (obs : State → α) (writes : Instr → Option α) : Prop where
  /-- A command leaves the value it writes, and else the value that stood there. -/
  effect_eq : ∀ (i : Instr) (s : State), obs (effect i s) = (writes i).getD (obs s)
  /-- Only the architectural components are observed. -/
  port_eq : ∀ (s : State) (es : List PortEvent) (r : Option Response), obs { s with port := es, rsp := r } = obs s

theorem tracks_byteAt (a : Addr) : Tracks (·.byteAt a) (writesByte a) :=
  ⟨fun i s => effect_byteAt i s a, fun _ _ _ => rfl⟩

theorem tracks_isUsed (a : Addr) : Tracks (fun s => decide (a.toNat ∈ s.used)) (writesUse a) :=
  ⟨fun i s => by rw [Bool.eq_iff_iff, decide_eq_true_iff]; exact effect_isUsed i s a, fun _ _ _ => rfl⟩

theorem tracks_readReg (k : Fin 256) : Tracks (·.readReg k) (writesReg k) :=
  ⟨fun i s => effect_readReg i s k, fun _ _ _ => rfl⟩

theorem tracks_readSlot (k : Fin 32) : Tracks (·.readSlot k) (writesSlot k) :=
  ⟨fun i s => effect_readSlot i s k, fun _ _ _ => rfl⟩

theorem tracks_pc : Tracks (·.pc) writesPc := ⟨effect_pc, fun _ _ _ => rfl⟩

/-- A step that changes an observation is a hard reset or performs a command that writes it. -/
theorem Tracks.writes_of_step {α : Type} {obs : State → α} {writes : Instr → Option α} (h : Tracks obs writes) {s t : State}
    (hstep : step s = .next t) (hne : obs t ≠ obs s) : s.resets ∨ ∃ i, s.performs i ∧ writes i ≠ none := by
  rcases step_next hstep with rfl | hreset | ⟨i, rest, hi, rfl⟩
  · exact absurd rfl hne
  · exact .inl hreset
  · refine .inr ⟨i, hi, fun hnone => hne ?_⟩
    rw [h.port_eq (effect i { s with port := rest }) _ _, h.effect_eq, hnone]
    exact h.port_eq s rest s.rsp

/-! ### Which commands write an observation (R11, R13, R18, R20) -/

theorem of_ite_some_ne_none {α : Type} {p : Prop} [Decidable p] {x : α} (h : (if p then some x else none) ≠ none) : p :=
  by_contra fun hp => h (if_neg hp)

section
variable {i : Instr}

theorem eq_of_writesPc_ne_none (h : writesPc i ≠ none) : i = .reset ∨ ∃ v, i = .setpc v := by
  cases i with
  | reset => exact .inl rfl
  | setpc v => exact .inr ⟨v, rfl⟩
  | _ => exact absurd rfl h

theorem eq_of_writesReg_ne_none {k : Fin 256} (h : writesReg k i ≠ none) : i = .reset ∨ ∃ v, i = .setreg k v := by
  cases i with
  | reset => exact .inl rfl
  | setreg idx v => exact .inr ⟨v, by rw [of_ite_some_ne_none h]⟩
  | _ => exact absurd rfl h

theorem eq_of_writesSlot_ne_none {k : Fin 32} (h : writesSlot k i ≠ none) : i = .reset ∨ ∃ v, i = .setspec k v := by
  cases i with
  | reset => exact .inl rfl
  | setspec idx v => exact .inr ⟨v, by rw [of_ite_some_ne_none h]⟩
  | _ => exact absurd rfl h

theorem eq_of_writesByte_ne_none {a : Addr} (h : writesByte a i ≠ none) :
    i = .clear ∨ (∃ v, i = .writeb a v) ∨ ∃ w b v, i = .write w b v ∧ covers w b a := by
  cases i with
  | clear => exact .inl rfl
  | writeb b v => exact .inr (.inl ⟨v, by rw [of_ite_some_ne_none h]⟩)
  | write w b v => exact .inr (.inr ⟨w, b, v, rfl, of_ite_some_ne_none h⟩)
  | _ => exact absurd rfl h

/-- A command that writes the place of an address in `USED` writes its byte (R20). -/
theorem writesByte_ne_none_of_writesUse {a : Addr} (h : writesUse a i ≠ none) : writesByte a i ≠ none := by
  cases i with
  | clear => nofun
  | writeb b v => simp [writesByte, of_ite_some_ne_none h]
  | write w b v => rw [writesByte, if_pos (of_ite_some_ne_none h)]; nofun
  | _ => exact absurd rfl h

end

/-- Settles O50: the program counter is an observation that SETPC and RESET alone write. -/
theorem onlySetpcAndResetsChangePc : Obligations.OnlySetpcAndResetsChangePc := by
  intro s t hstep hne
  obtain hreset | ⟨i, hi, hw⟩ := tracks_pc.writes_of_step hstep hne
  · exact .inl hreset
  · obtain rfl | ⟨v, rfl⟩ := eq_of_writesPc_ne_none hw
    · exact .inr (.inl hi)
    · exact .inr (.inr ⟨v, hi⟩)

/-- Settles O51: a register is an observation that SETREG of its index and RESET alone write, a slot likewise with SETSPEC. -/
theorem onlyRegisterWritesChangeRegisters : Obligations.OnlyRegisterWritesChangeRegisters := by
  refine fun s t hstep => ⟨fun k hne => ?_, fun k hne => ?_⟩
  · obtain hreset | ⟨i, hi, hw⟩ := (tracks_readReg k).writes_of_step hstep hne
    · exact .inl hreset
    · obtain rfl | ⟨v, rfl⟩ := eq_of_writesReg_ne_none hw
      · exact .inr (.inl hi)
      · exact .inr (.inr ⟨v, hi⟩)
  · obtain hreset | ⟨i, hi, hw⟩ := (tracks_readSlot k).writes_of_step hstep hne
    · exact .inl hreset
    · obtain rfl | ⟨v, rfl⟩ := eq_of_writesSlot_ne_none hw
      · exact .inr (.inl hi)
      · exact .inr (.inr ⟨v, hi⟩)

/-- A step that changes a byte or its place in `USED` is a hard reset or performs a command that writes the byte. -/
theorem writesByte_of_step {s t : State} {a : Addr} (hstep : step s = .next t)
    (hne : t.byteAt a ≠ s.byteAt a ∨ ¬ (t.isUsed a ↔ s.isUsed a)) :
    s.resets ∨ ∃ i, s.performs i ∧ writesByte a i ≠ none := by
  rcases hne with hbyte | hused
  · exact (tracks_byteAt a).writes_of_step hstep hbyte
  · refine ((tracks_isUsed a).writes_of_step hstep fun h => hused (decide_eq_decide.1 h)).imp_right ?_
    exact fun ⟨i, hi, hw⟩ => ⟨i, hi, writesByte_ne_none_of_writesUse hw⟩

/-- A step that takes an address out of `USED` is a hard reset or a CLEAR (R20, R85). -/
theorem clears_of_step {s t : State} {a : Addr} (hstep : step s = .next t) (hs : s.isUsed a) (ht : ¬ t.isUsed a) :
    s.resets ∨ s.performs .clear := by
  rcases step_next hstep with rfl | hreset | ⟨i, rest, hi, rfl⟩
  · exact absurd hs ht
  · exact .inl hreset
  · by_cases hclear : i = .clear
    · exact .inr (hclear ▸ hi)
    · exact absurd (isUsed_effect_of_ne_clear (s := { s with port := rest }) hclear hs) ht

/-- Settles O52: a byte is an observation that CLEAR and the covering stores alone write, and its place in `USED` goes with it. -/
theorem onlyStoresChangeMemory : Obligations.OnlyStoresChangeMemory := by
  refine fun s t a hstep => ⟨fun hne => ?_, clears_of_step hstep⟩
  obtain hreset | ⟨i, hi, hw⟩ := writesByte_of_step hstep hne
  · exact .inl hreset
  · obtain rfl | ⟨v, rfl⟩ | ⟨w, b, v, rfl, hcovers⟩ := eq_of_writesByte_ne_none hw
    · exact .inr (.inl hi)
    · exact .inr (.inr (.inl ⟨v, hi⟩))
    · exact .inr (.inr (.inr ⟨w, b, v, hi, hcovers⟩))

/-! ### Blocks side by side (R24) -/

/-- Settles O55: block `k` is replaced by its own step's state, and the list is else as it was. -/
theorem blocksShareNothing : Obligations.BlocksShareNothing := by
  intro bs k s hk t hstep
  obtain ⟨hlt, -⟩ := List.getElem?_eq_some_iff.1 hk
  refine ⟨bs.set k t, ?_, List.getElem?_set_self hlt, List.length_set, fun j hj => List.getElem?_set_ne hj.symm⟩
  simp only [stepBlock, hk, Option.map_some, hstep]

end Sys2Proof.Machine
end

section
/-! PROOFS, spec/20_memory.md and spec/40_memory_ops.md. The alignment properties (O14), READB, WRITEB and USED (O17, O18, O19), reads
after a WRITE (O22, O23, O24), and signed against unsigned reads (O26). -/

namespace Sys2Proof.Machine

/-! ### Alignment (R32, R43) -/

theorem alignDown_eq_self_iff (a : Addr) (w : Width) : alignDown a w = a ↔ a.toNat % ew w = 0 :=
  ⟨fun h => h ▸ alignDown_mod a w, alignDown_of_mod a w⟩

theorem sub_alignDown_lt (a : Addr) (w : Width) : a.toNat - (alignDown a w).toNat < ew w := by
  have hle : a.toNat % ew w ≤ a.toNat := Nat.mod_le ..
  have hlt : a.toNat % ew w < ew w := Nat.mod_lt _ (ew_pos w)
  rw [alignDown_toNat]
  omega

@[simp] theorem alignDown_byte (a : Addr) : alignDown a .byte = a := alignDown_of_mod a .byte (Nat.mod_one _)

/-- Settles O14: `alignDown` subtracts the remainder by `ew(W)`, a divisor of 2^64. -/
theorem alignDownProperties : Obligations.AlignDownProperties := fun a w =>
  ⟨alignDown_le a w, alignDown_mod a w, sub_alignDown_lt a w, alignDown_alignDown a w, alignDown_eq_self_iff a w, rfl,
    alignDown_add_ew_le a w⟩

/-! ### READB and WRITEB are the byte accesses (R82, R83) -/

theorem loadBytes_byte (s : State) (a : Addr) :
    s.loadBytes (alignDown a .byte).toNat (ew .byte) = [s.byteAt a] := by
  rw [alignDown_byte]; rfl

theorem bytesToValue_byte (b : Byte) : bytesToValue .byte false [b] = b.setWidth 64 := by
  simp [bytesToValue, combine]

theorem valueToBytes_byte (v : Nat) : valueToBytes .byte v = [lowByte v] := rfl

/-- Settles O17: READB answers the byte, and the byte READ loads that byte alone. -/
theorem readbAnswersByte : Obligations.ReadbAnswersByte :=
  ⟨fun _ => decode_readb, fun a s => ⟨exec_eq .., by rw [exec_read, loadBytes_byte, bytesToValue_byte]⟩⟩

theorem exec_write_byte (a : Addr) (v : Nat) (s : State) : exec (.write .byte a v) s = exec (.writeb a v) s := by
  rw [exec_eq, exec_eq, effect, alignDown_byte, valueToBytes_byte]; rfl

/-- Settles O18: another address keeps its byte and its place in `USED`, and WRITE.B stores the same byte. -/
theorem writebStoresLowByte : Obligations.WritebStoresLowByte := by
  refine ⟨fun r => decode_writeb, fun a v s => ⟨_, exec_eq .., rfl, ⟨rfl, rfl, rfl, rfl⟩, writeb_byteAt a v s,
    writeb_isUsed a v s, fun b hb => ⟨?_, ?_⟩, (exec_write_byte a v s).trans (exec_eq ..)⟩⟩
  · exact (effect_byteAt ..).trans (by rw [writesByte, if_neg hb.symm]; rfl)
  · exact (effect_isUsed ..).trans (by rw [writesUse, if_neg hb.symm]; exact decide_eq_true_iff)

/-! ### USED (R84) -/

/-- Settles O19: under the invariant the answered addresses are, as numbers, the used set itself. -/
theorem usedListsAddressesAscending : Obligations.UsedListsAddressesAscending := by
  refine ⟨fun r => decode_used, fun s => ⟨_, exec_eq .., List.length_map .., fun hinv => ?_, rfl, fun t ht => ?_⟩⟩
  · have hseq : (s.used.map (BitVec.ofNat 64)).map BitVec.toNat = s.used := seq_used hinv.2.1
    refine ⟨List.pairwise_map.1 (hseq.symm ▸ hinv.2.1.1), fun a => ?_⟩
    rw [State.isUsed, ← hseq, List.mem_map_of_injective fun _ _ => BitVec.eq_of_toNat_eq, hseq]
  · rw [exec_next ht]; rfl

/-! ### Bytes and the numbers they combine to (R34, R38) -/

theorem split_combine (bs : List Byte) : split bs.length (combine bs) = bs :=
  combine_inj (split_length ..) ((combine_split ..).trans (Nat.mod_eq_of_lt (combine_lt bs)))

/-- Byte `j` of a byte string, read out of the number it combines to. -/
theorem combine_div_mod (bs : List Byte) {j : Nat} (hj : j < bs.length) :
    combine bs / 256 ^ (bs.length - 1 - j) % 256 = (bs.getD j 0).toNat :=
  calc combine bs / 256 ^ (bs.length - 1 - j) % 256
    _ = (BitVec.ofNat 8 (combine bs / 256 ^ (bs.length - 1 - j))).toNat := by rw [BitVec.toNat_ofNat]
    _ = ((split bs.length (combine bs)).getD j 0).toNat := by rw [split_getD _ _ _ hj]
    _ = (bs.getD j 0).toNat := by rw [split_combine]

/-- The bytes just stored are loaded back. -/
theorem loadBytes_storeBytes (s : State) (a : Nat) (bs : List Byte) : (s.storeBytes a bs).loadBytes a bs.length = bs := by
  refine List.ext_getElem (loadBytes_length ..) fun k _ hk => ?_
  simp only [State.loadBytes, List.getElem_map, List.getElem_range, storeBytes_read]
  rw [if_pos (by omega), Nat.add_sub_cancel_left, List.getD_eq_getElem _ _ hk]

theorem ofNat_mod_two_pow (n v : Nat) : BitVec.ofNat n (v % 2 ^ n) = BitVec.ofNat n v := by
  apply BitVec.eq_of_toNat_eq
  simp

/-- The value that a width's stored bytes are read as: the stored quantity, shifted or extended (R46). -/
theorem bytesToValue_valueToBytes (w : Width) (sg : Bool) (v : Nat) :
    bytesToValue w sg (valueToBytes w v) =
      if w = .highTetra then BitVec.ofNat 64 (storedQuantity w v) <<< 32
      else if sg then (BitVec.ofNat (8 * ew w) v).signExtend 64
      else BitVec.ofNat 64 (v % 2 ^ (8 * ew w)) := by
  rw [bytesToValue, combine_valueToBytes, storedQuantity]
  by_cases hw : w = .highTetra
  · simp only [hw, if_true]
  · simp only [hw, if_false, ofNat_mod_two_pow]

/-- Settles O22: the stored bytes are loaded back and translated. -/
theorem writeReadRoundTrip : Obligations.WriteReadRoundTrip := by
  intro w sg a v s
  have hload : (s.storeBytes (alignDown a w).toNat (valueToBytes w v)).loadBytes (alignDown a w).toNat (ew w) =
      valueToBytes w v := by
    simpa using loadBytes_storeBytes s (alignDown a w).toNat (valueToBytes w v)
  have hvalue := (congrArg (bytesToValue w sg) hload).trans (bytesToValue_valueToBytes w sg v)
  refine ⟨_, _, exec_eq .., exec_read .., congrArg (some ∘ Response.val) (hvalue.trans ?_)⟩
  cases w with
  | highTetra => rfl
  | octa =>
    cases sg with
    | false => exact ofNat_mod_two_pow 64 v
    | true => exact BitVec.signExtend_eq _
  | byte | wyde | tetra => cases sg <;> rfl

/-! ### One byte of an access (R33, R45) -/

/-- Inside an access an address is counted from the aligned one without wrapping (R43). -/
theorem toNat_alignDown_add {w : Width} {j : Nat} (hj : j < ew w) (a : Addr) :
    (alignDown a w + BitVec.ofNat 64 j).toNat = (alignDown a w).toNat + j := by
  have := alignDown_add_ew_le a w
  rw [BitVec.toNat_add, BitVec.toNat_ofNat]
  omega

theorem covers_alignDown_add {w : Width} {j : Nat} (hj : j < ew w) (a : Addr) :
    covers w a (alignDown a w + BitVec.ofNat 64 j) := by
  rw [covers, toNat_alignDown_add hj]
  omega

/-- Byte `j` of the octa a WRITE stores, most significant first (R33). -/
theorem storedByte_octa (v k : Nat) :
    storedByte .octa v k = (BitVec.ofNat 64 v).extractLsb' (8 * (7 - k)) 8 := by
  apply BitVec.eq_of_toNat_eq
  rw [BitVec.extractLsb'_toNat, BitVec.toNat_ofNat, Nat.shiftRight_eq_div_pow, Nat.pow_mul]
  exact BitVec.toNat_ofNat ..

/-- Settles O23: the address is inside the WRITE, `k` bytes from its aligned address. -/
theorem octaBytesMostSignificantFirst : Obligations.OctaBytesMostSignificantFirst := by
  refine fun a v s => ⟨_, exec_eq .., fun k hk => (exec_eq ..).trans ?_⟩
  have hbyte := (write_byteAt .octa a v s (alignDown a .octa + BitVec.ofNat 64 k)).trans (if_pos (covers_alignDown_add hk a))
  rw [toNat_alignDown_add hk, Nat.add_sub_cancel_left, storedByte_octa] at hbyte
  exact congrArg (fun b => Host.Outcome.next { effect (.write .octa a v) s with rsp := some (.byte b) }) hbyte

/-- Byte `j` of an unsigned read is the byte at the aligned address plus `j` (R34). -/
theorem read_div_mod {w : Width} (hw : w ≠ .highTetra) (a : Addr) (s : State) {j : Nat} (hj : j < ew w) :
    (readValue w false a s).toNat / 256 ^ (ew w - 1 - j) % 256 = (s.byteAt (alignDown a w + BitVec.ofNat 64 j)).toNat := by
  have hlen := loadBytes_length s (alignDown a w).toNat (ew w)
  have hbyte := combine_div_mod (s.loadBytes (alignDown a w).toNat (ew w)) (hlen.symm ▸ hj)
  rw [readValue, bytesToValue_toNat hlen, if_neg hw, if_neg (by simp), State.byteAt, toNat_alignDown_add hj]
  rw [hlen] at hbyte
  rw [hbyte]
  simp [State.loadBytes, List.getD, hj]

/-- Settles O24: a byte of the READ is a byte of the state the WRITE leaves. -/
theorem mixedWidthsComposeByBytes : Obligations.MixedWidthsComposeByBytes := by
  refine fun w w' a a' v s hw' => ⟨_, _, exec_eq .., exec_read .., fun j hj => ?_⟩
  have hbyte := (read_div_mod hw' a' (effect (.write w a v) s) hj).trans (congrArg BitVec.toNat (write_byteAt w a v s _))
  refine ⟨fun hc => hbyte.trans ?_, fun hc => hbyte.trans ?_⟩
  · rw [if_pos hc, toNat_alignDown_add hj]
  · rw [if_neg hc]

/-! ### Signed and unsigned reads (R36, R37) -/

section
variable {w : Width} (hw : w ≠ .highTetra) (a : Addr) (s : State)
include hw

/-- An unsigned read fits its width (R37). -/
theorem readValue_lt : (readValue w false a s).toNat < 2 ^ (8 * ew w) := by
  have hlt := combine_lt (s.loadBytes (alignDown a w).toNat (ew w))
  rw [loadBytes_length] at hlt
  rw [readValue, bytesToValue_toNat (loadBytes_length ..), Nat.pow_mul]
  simpa [hw] using hlt

/-- A signed read is the unsigned one, extended when the top bit of its width is 1 (R36). -/
theorem readValue_signed_toNat : (readValue w true a s).toNat =
    if 2 ^ (8 * ew w - 1) ≤ (readValue w false a s).toNat then (readValue w false a s).toNat + 2 ^ 64 - 2 ^ (8 * ew w)
    else (readValue w false a s).toNat := by
  simp [readValue, bytesToValue_toNat (loadBytes_length ..), hw]

/-- The top bit of the width is set in an unsigned read exactly when the value reaches half the width's bound. -/
theorem readValue_top_bit :
    (readValue w false a s).getLsbD (8 * ew w - 1) = true ↔ 2 ^ (8 * ew w - 1) ≤ (readValue w false a s).toNat := by
  have hlt := readValue_lt hw a s
  rw [BitVec.getLsbD, Nat.testBit_eq_decide_div_mod_eq, decide_eq_true_iff]
  cases w <;> simp only [ew] at * <;> omega

theorem readValue_mod : (readValue w false a s).toNat % 2 ^ (8 * ew w) = (readValue w true a s).toNat % 2 ^ (8 * ew w) := by
  rw [readValue_signed_toNat hw]
  split
  · cases w <;> simp only [ew] at * <;> omega
  · rfl

theorem readValue_ne_iff : readValue w false a s ≠ readValue w true a s ↔
    (w = .byte ∨ w = .wyde ∨ w = .tetra) ∧ (readValue w false a s).getLsbD (8 * ew w - 1) = true := by
  rw [BitVec.toNat_ne, readValue_signed_toNat hw, readValue_top_bit hw]
  by_cases htop : 2 ^ (8 * ew w - 1) ≤ (readValue w false a s).toNat
  · rw [if_pos htop]
    cases w with
    | highTetra => exact absurd rfl hw
    | octa => simp [ew]
    | byte | wyde | tetra => simp [ew] at htop ⊢; omega
  · rw [if_neg htop]
    simp [htop]

end

/-- Settles O26: a high-tetra read ignores `sg`; below it the two values are the same number but for the sign extension. -/
theorem signedAndUnsignedReadsAgree : Obligations.SignedAndUnsignedReadsAgree := by
  refine fun w a s => ⟨_, _, exec_read .., exec_read .., ?_⟩
  by_cases hw : w = .highTetra
  · subst hw
    simp [bytesToValue_highTetra]
  · exact ⟨readValue_mod hw a s, readValue_ne_iff hw a s⟩

end Sys2Proof.Machine
end

section
/-! PROOFS, spec/20_memory.md section 9. Histories: what a run of commands leaves (O27, O28, O29). -/

namespace Sys2Proof.Machine

/-- The step of a run that performs a command the port can carry. -/
theorem step_withPort_encode {i : Instr} {vw : Nat} (h : i.wellFormed vw = true) (s : State) :
    step (s.withPort [.command (encode i)]) =
      .next { effect i (s.withPort []) with rsp := some (answer i (s.withPort [])) } :=
  (step_of_decode rfl (decode_encode h)).trans (exec_eq ..)

theorem runEvents_cons {e : PortEvent} {es : List PortEvent} {s t u : State} {rs : List (Option Response)}
    (hstep : step (s.withPort [e]) = .next t) (hrun : runEvents es t = .next (rs, u)) :
    runEvents (e :: es) s = .next (t.rsp :: rs, u) := by
  simp only [runEvents, hstep, hrun]

/-- A run of commands that the port can carry answers every one, and leaves of each observation what the latest command that writes
it left (R49, R156). -/
theorem runEvents_eventsOf {vw : Nat} (h : List Instr) (s : State) (hwf : ∀ i ∈ h, i.wellFormed vw = true) :
    ∃ (rs : List (Option Response)) (t : State),
      runEvents (eventsOf h) s = .next (rs, t) ∧ rs.length = h.length ∧ none ∉ rs ∧
      ∀ {α : Type} {obs : State → α} {writes : Instr → Option α}, Tracks obs writes → obs t = latest h writes (obs s) := by
  induction h generalizing s with
  | nil => exact ⟨[], s, rfl, rfl, List.not_mem_nil, fun _ => rfl⟩
  | cons i h ih =>
    obtain ⟨hi, hh⟩ := List.forall_mem_cons.1 hwf
    have hstep := step_withPort_encode hi s
    obtain ⟨rs, t, hrun, hlen, hnone, hobs⟩ := ih { effect i (s.withPort []) with rsp := some (answer i (s.withPort [])) } hh
    refine ⟨_, t, runEvents_cons hstep hrun, congrArg (· + 1) hlen, ?_, fun htracks => ?_⟩
    · simpa using hnone
    · rw [hobs htracks, latest_cons, htracks.port_eq (effect i (s.withPort [])) _ _, htracks.effect_eq]
      exact congrArg _ (congrArg _ (htracks.port_eq s [] s.rsp))

/-- Settles O27: every byte is an observation. -/
theorem byteIsLatestWritten : Obligations.ByteIsLatestWritten := by
  intro vw h s hwf
  obtain ⟨rs, t, hrun, hlen, hnone, hobs⟩ := runEvents_eventsOf h s hwf
  exact ⟨rs, t, hrun, hlen, hnone, fun a => hobs (tracks_byteAt a)⟩

/-- Settles O28: membership in `USED` is an observation too, and nothing stands before the first command in an empty set. -/
theorem usedIsWrittenSinceClear : Obligations.UsedIsWrittenSinceClear := by
  intro vw h s hwf
  obtain ⟨rs, t, hrun, -, -, hobs⟩ := runEvents_eventsOf h s hwf
  have hused (a : Addr) : t.isUsed a ↔ latest h (writesUse a) (decide (a.toNat ∈ s.used)) = true := by
    rw [← hobs (tracks_isUsed a), decide_eq_true_iff, State.isUsed]
  refine ⟨rs, t, hrun, hused, fun hempty a => ?_⟩
  simpa [hempty] using hused a

/-- Settles O29: every register, every slot and the program counter is an observation. -/
theorem registerIsLatestWritten : Obligations.RegisterIsLatestWritten := by
  intro vw h s hwf
  obtain ⟨rs, t, hrun, -, -, hobs⟩ := runEvents_eventsOf h s hwf
  exact ⟨rs, t, hrun, fun k => hobs (tracks_readReg k), fun k => hobs (tracks_readSlot k), hobs tracks_pc⟩

end Sys2Proof.Machine
end

section
/-! PROOFS, spec/41_register_ops.md and spec/42_formatting.md. Names and the registers they denote (O34, O35, O36, O37), and the
formatted numerals (O41, O42). -/

namespace Sys2Proof.Machine

/-! ### The mnemonics and their slots (R14, R15) -/

theorem mnemonicName_injective : Function.Injective mnemonicName := fun m m' h =>
  List.inj_on_of_nodup_map (show (Mnemonic.all.map mnemonicName).Nodup by decide) (mem_all m) (mem_all m') h

theorem mnemonicName_length_le (m : Mnemonic) : (mnemonicName m).length ≤ 3 := by cases m <;> decide

/-- Settles O35: the default table is a bijection and the shuffle of the slots another; the spellings are compared pairwise. -/
theorem slotMapIsBijection : Obligations.SlotMapIsBijection := ⟨slotOf_bijective, mnemonicName_injective, rfl, mem_all⟩

/-! ### What a name denotes (R104) -/

theorem resolveName_dollar (cs : List Byte) : resolveName (0x24 :: cs) = (designatorIndex cs).elim .unknown .general := by
  show resolveName (0x24#8 :: cs) = _
  cases h : designatorIndex cs <;> simp only [resolveName, h, Option.elim]

theorem resolveName_of_isDesignator {n : List Byte} {i : Fin 256} (h : isDesignator n i) : resolveName n = .general i := by
  obtain ⟨ds, hds, rfl⟩ := h
  rw [resolveName_dollar, (designatorIndex_some _ i).2 ⟨ds, hds, rfl⟩]
  rfl

/-- A name that does not begin with `$` is looked up among the mnemonics. -/
theorem resolveName_of_head_ne {n : List Byte} (h : n.head? ≠ some 0x24) :
    resolveName n = (Mnemonic.all.find? (mnemonicName · == n)).elim .unknown (.special ∘ slotOf) := by
  have hfind : nameTable.find? (fun row => row.1 == n) =
      (Mnemonic.all.find? (mnemonicName · == n)).map fun m => (mnemonicName m, slotOf m) := List.find?_map ..
  unfold resolveName
  split
  · exact absurd rfl h
  · rw [hfind]
    cases Mnemonic.all.find? (mnemonicName · == n) <;> rfl

theorem find_mnemonicName (m : Mnemonic) : Mnemonic.all.find? (mnemonicName · == mnemonicName m) = some m := by
  cases h : Mnemonic.all.find? (mnemonicName · == mnemonicName m) with
  | none => exact absurd (beq_self_eq_true _) (List.find?_eq_none.1 h m (mem_all m))
  | some m' => rw [mnemonicName_injective (beq_iff_eq.1 (List.find?_some h :))]

theorem resolveName_mnemonicName (m : Mnemonic) : resolveName (mnemonicName m) = .special (slotOf m) := by
  rw [resolveName_of_head_ne (by simp [mnemonicName]), find_mnemonicName]
  rfl

/-- A name that is neither a designator nor a mnemonic denotes nothing. -/
theorem resolveName_eq_unknown {n : List Byte} (hd : ∀ i, ¬ isDesignator n i) (hm : ∀ m, n ≠ mnemonicName m) :
    resolveName n = .unknown := by
  by_cases hn : n.head? = some 0x24
  · obtain ⟨cs, rfl⟩ : ∃ cs, n = 0x24 :: cs := ⟨n.tail, List.eq_cons_of_mem_head? hn⟩
    cases hi : designatorIndex cs with
    | none => rw [resolveName_dollar, hi]; rfl
    | some i =>
      obtain ⟨ds, hds, rfl⟩ := (designatorIndex_some cs i).1 hi
      exact absurd ⟨ds, hds, rfl⟩ (hd i)
  · have hnone : Mnemonic.all.find? (mnemonicName · == n) = none :=
      List.find?_eq_none.2 fun m _ h => hm m (beq_iff_eq.1 h).symm
    rw [resolveName_of_head_ne hn, hnone]
    rfl

/-- Every name is a designator, a mnemonic, or neither. -/
theorem name_cases (n : List Byte) :
    (∃ i, isDesignator n i) ∨ (∃ m, n = mnemonicName m) ∨ (∀ i, ¬ isDesignator n i) ∧ ∀ m, n ≠ mnemonicName m := by
  by_cases hd : ∃ i, isDesignator n i
  · exact .inl hd
  · by_cases hm : ∃ m, n = mnemonicName m
    · exact .inr (.inl hm)
    · exact .inr (.inr ⟨not_exists.1 hd, not_exists.1 hm⟩)

/-- Settles O34: the three kinds of name resolve to the three kinds of reference, which differ. -/
theorem namesResolve : Obligations.NamesResolve := by
  refine ⟨fun n i => ⟨fun h => ?_, resolveName_of_isDesignator⟩, fun n j => ⟨fun h => ?_, ?_⟩,
    fun n => ⟨fun h => ?_, fun h => resolveName_eq_unknown h.1 h.2⟩⟩
  · rcases name_cases n with ⟨i', hi⟩ | ⟨m, rfl⟩ | ⟨hd, hm⟩
    · exact NameRef.general.inj ((resolveName_of_isDesignator hi).symm.trans h) ▸ hi
    · cases (resolveName_mnemonicName m).symm.trans h
    · cases (resolveName_eq_unknown hd hm).symm.trans h
  · rcases name_cases n with ⟨i', hi⟩ | ⟨m, rfl⟩ | ⟨hd, hm⟩
    · cases (resolveName_of_isDesignator hi).symm.trans h
    · exact ⟨m, rfl, NameRef.special.inj ((resolveName_mnemonicName m).symm.trans h)⟩
    · cases (resolveName_eq_unknown hd hm).symm.trans h
  · rintro ⟨m, rfl, rfl⟩
    exact resolveName_mnemonicName m
  · rcases name_cases n with ⟨i', hi⟩ | ⟨m, rfl⟩ | hneither
    · cases (resolveName_of_isDesignator hi).symm.trans h
    · cases (resolveName_mnemonicName m).symm.trans h
    · exact hneither

/-! ### The name operand (R72, R105) -/

/-- Byte `k` of the 64-bit word that eight bytes make, counted from bit 63 down. -/
theorem extractLsb'_combine {bs : List Byte} (hlen : bs.length = 8) {k : Nat} (hk : k < 8) :
    (BitVec.ofNat 64 (combine bs)).extractLsb' (56 - 8 * k) 8 = bs.getD k 0 := by
  have hlt : combine bs < 2 ^ 64 := by simpa [hlen] using combine_lt bs
  have hbyte := combine_div_mod bs (hlen.symm ▸ hk)
  have hshift : 56 - 8 * k = 8 * (8 - 1 - k) := by omega
  rw [hlen] at hbyte
  apply BitVec.eq_of_toNat_eq
  rw [BitVec.extractLsb'_toNat, BitVec.toNat_ofNat, Nat.mod_eq_of_lt hlt, Nat.shiftRight_eq_div_pow, hshift, Nat.pow_mul]
  exact hbyte

/-- Byte `k` of a packed name; a byte the name does not have is 0. -/
theorem packName_byte (n : List Byte) {k : Nat} (hk : k < 8) : (packName n).extractLsb' (56 - 8 * k) 8 = n.getD k 0 := by
  rw [packName, extractLsb'_combine (by simp) hk]
  simp [List.getD, hk]

theorem nameBytes_getElem? {len k : Nat} (hk : k < len) (c : Addr) :
    (nameBytes len c)[k]? = some (c.extractLsb' (56 - 8 * k) 8) := by
  simp [nameBytes, hk]

/-- A name the port can carry is unpacked as it was packed. -/
theorem nameBytes_packName {n : List Byte} (h : n.length ≤ 8) : nameBytes n.length (packName n) = n := by
  have hlen : (nameBytes n.length (packName n)).length = n.length := by simp [nameBytes]
  refine List.ext_getElem hlen fun k hk hk' => ?_
  apply Option.some.inj
  rw [← List.getElem?_eq_getElem, nameBytes_getElem? hk', packName_byte n (by omega), List.getD_eq_getElem]

section
variable {len : Nat} {c : Addr} (s : State)

theorem exec_getname_general (hlen : len ≤ 8) {i : Fin 256} (h : resolveName (nameBytes len c) = .general i) :
    exec (.getname len c) s = .next { s with rsp := some (.val (s.readReg i)) } := by
  rw [exec_eq, answer, if_neg (Nat.not_lt.2 hlen), h]
  rfl

theorem exec_getname_special (hlen : len ≤ 8) {j : Fin 32} (h : resolveName (nameBytes len c) = .special j) :
    exec (.getname len c) s = .next { s with rsp := some (.val (s.readSlot j)) } := by
  rw [exec_eq, answer, if_neg (Nat.not_lt.2 hlen), h]
  rfl

/-- A name that is too long or denotes nothing has no register (R72, R105). -/
theorem exec_getname_unknown (h : 8 < len ∨ resolveName (nameBytes len c) = .unknown) :
    exec (.getname len c) s = .next { s with rsp := some (.err .unknownRegister) } :=
  exec_of_answer_err ((answer_getname_eq_err_iff ..).2 ⟨h, rfl⟩)

end

/-- Settles O37: packing puts byte `k` where unpacking reads it, and a longer name answers an error. -/
theorem nameOperandUnpacks : Obligations.NameOperandUnpacks :=
  ⟨fun _ => nameBytes_packName, fun _ c _ hk _ => nameBytes_getElem? hk c, fun _ _ s hlen => exec_getname_unknown s (.inl hlen)⟩

theorem length_le_of_isDesignator {n : List Byte} {i : Fin 256} (h : isDesignator n i) : n.length ≤ 8 := by
  obtain ⟨ds, hds, rfl⟩ := h
  have hle := isNumeral_length_le ds i i.isLt hds
  rw [List.length_cons, List.length_map]
  omega

/-- Settles O36: designators and mnemonics fit the operand and are unpacked whole; another name is too long or unpacked whole. -/
theorem getnameAnswersNamedRegister : Obligations.GetnameAnswersNamedRegister := by
  refine ⟨fun r => decode_getname, fun s n => ⟨fun i hi => ?_, fun m hm => ?_, fun hd hm => exec_getname_unknown s ?_⟩⟩
  · have hlen := length_le_of_isDesignator hi
    exact exec_getname_general s hlen (by rw [nameBytes_packName hlen, resolveName_of_isDesignator hi])
  · have hlen : n.length ≤ 8 := hm ▸ (mnemonicName_length_le m).trans (by decide)
    exact exec_getname_special s hlen (by rw [nameBytes_packName hlen, hm, resolveName_mnemonicName])
  · refine (Nat.lt_or_ge 8 n.length).imp_right fun hlen => ?_
    rw [nameBytes_packName hlen, resolveName_eq_unknown hd hm]

/-! ### Formatted numerals (R120, R121) -/

theorem padTo_map (digits : Nat) (ds : List Nat) :
    padTo digits (ds.map asciiDigit) = List.replicate (digits - ds.length) 0x30 ++ ds.map asciiDigit := by
  rw [padTo, List.length_map]

/-- Settles O41: sixteen digits are enough for 64 bits. -/
theorem fmthexRendersHexadecimal : Obligations.FmthexRendersHexadecimal := by
  refine ⟨fun r => decode_fmthex, fun digits v s => ?_⟩
  obtain ⟨hnumeral, hlen, -⟩ := numDigits_spec 16 16 (v % 2 ^ 64) (by decide) (by decide) (Nat.mod_lt _ (by decide))
  refine ⟨_, hnumeral, hlen, ?_⟩
  rw [exec_fmthex, hexNumeral, numeral_digits, low64_toNat, padTo_map]

/-- The sign and the magnitude of a 64-bit value are those of its two's-complement reading. -/
theorem signedNumeral_eq (v : Word) :
    signedNumeral v = (if v.toInt < 0 then [0x2D#8] else []) ++ decNumeral v.toInt.natAbs := by
  have hlt := v.isLt
  have hint := BitVec.toInt_eq_msb_cond v
  cases hm : v.msb with
  | true =>
    rw [hm, if_pos rfl] at hint
    have hneg : v.toInt < 0 := by omega
    have hmag : 2 ^ 64 - v.toNat = v.toInt.natAbs := by omega
    rw [signedNumeral, hm, if_pos rfl, if_pos hneg, hmag]
    rfl
  | false =>
    rw [hm, if_neg Bool.false_ne_true] at hint
    have hnonneg : ¬ v.toInt < 0 := by omega
    have hmag : v.toNat = v.toInt.natAbs := by omega
    rw [signedNumeral, hm, if_neg Bool.false_ne_true, if_neg hnonneg, hmag]
    rfl

/-- Settles O42: twenty digits are enough for a magnitude of at most 2^64. -/
theorem fmtsgnRendersSignedDecimal : Obligations.FmtsgnRendersSignedDecimal := by
  refine ⟨fun r => decode_fmtsgn, fun v s => ?_⟩
  have hlt : (BitVec.ofNat 64 v).toInt.natAbs < 10 ^ 20 := by
    have := (BitVec.ofNat 64 v).isLt
    rw [BitVec.toInt_eq_toNat_cond]
    split <;> omega
  obtain ⟨hnumeral, -⟩ := numDigits_spec 10 20 _ (by decide) (by decide) hlt
  refine ⟨_, hnumeral, ?_⟩
  rw [exec_fmtsgn, signedNumeral_eq, decNumeral, numeral_digits]
  rfl

end Sys2Proof.Machine
end

section
/-! PROOFS, spec/30_encoding.md and spec/60_exceptions.md. The kinds of answer (O48) and the reading commands (O49), errors (O46),
`USED` as an output alone (O53), FULLRESET (O54), the functional form's indices and values (O57, O58), and the lines without
payload (O60). -/

namespace Sys2Proof.Machine

/-! ### What each command answers and keeps (R60, R70) -/

/-- Settles O48: each command's answer is of its row's kind, and no effect touches the port. -/
theorem everyCommandAnswersItsKind : Obligations.EveryCommandAnswersItsKind := by
  refine fun i s => ⟨_, _, exec_eq i s, rfl, effect_port i s, ?_⟩
  cases i with
  | write | writeb | clear | reset | setpc => rfl
  | read | getpc | readb | used | fmthex | fmtsgn => exact ⟨_, rfl⟩
  | getreg idx => exact (answer_getreg_cases idx s).imp_right fun h => ⟨_, h⟩
  | getspec idx => exact (answer_getspec_cases idx s).imp_right fun h => ⟨_, h⟩
  | getname len c => exact (answer_getname_cases len c s).imp_right fun h => ⟨_, h⟩
  | setreg idx v => exact (answer_setreg_cases idx v s).imp_right fun h => ⟨_, h⟩
  | setspec idx v => exact (answer_setspec_cases idx v s).imp_right fun h => ⟨_, h⟩

/-- A command without effect changes nothing but the response. -/
theorem exec_of_effect_eq {i : Instr} {s : State} (h : effect i s = s) :
    exec i s = .next { s with rsp := some (answer i s) } := by
  rw [exec_eq, h]

/-- Settles O49: the nine commands have no effect. -/
theorem readingCommandsChangeNothing : Obligations.ReadingCommandsChangeNothing := by
  intro i s hi
  have heffect : effect i s = s := by
    cases i with
    | write | writeb | clear | setreg | setspec | reset | setpc => exact hi.elim
    | _ => rfl
  refine ⟨_, exec_of_effect_eq heffect, fun t ht a => ?_⟩
  obtain rfl := Host.Outcome.next.inj ((exec_of_effect_eq heffect).symm.trans ht)
  rfl

/-- Settles O46: a failing command changes the response alone, and a command does not see the response. -/
theorem errorsAreNotSticky : Obligations.ErrorsAreNotSticky := by
  intro i j s t e hexec herr
  rw [errorLeavesStateUnchanged i s t e hexec herr, exec_setRsp]

/-! ### `USED` is an output alone (R84) -/

/-- The bytes after a store depend on the bytes before it alone. -/
theorem storeBytes_mem_congr {s t : State} (h : s.mem = t.mem) (a : Nat) (bs : List Byte) :
    (s.storeBytes a bs).mem = (t.storeBytes a bs).mem := by
  induction bs generalizing s t a with
  | nil => exact h
  | cons b bs ih => exact ih (by rw [State.storeByte_mem, State.storeByte_mem, h]) (a + 1)

section
variable (i : Instr) (s : State) (l : List Nat)

theorem answer_setUsed (h : i ≠ .used) : answer i { s with used := l } = answer i s := by
  cases i with
  | used => exact absurd rfl h
  | _ => rfl

theorem effect_setUsed :
    (effect i { s with used := l }).mem = (effect i s).mem ∧ (effect i { s with used := l }).x = (effect i s).x ∧
    (effect i { s with used := l }).sr = (effect i s).sr ∧ (effect i { s with used := l }).pc = (effect i s).pc := by
  cases i with
  | write w a v =>
    have hmem := storeBytes_mem_congr (s := { s with used := l }) (t := s) rfl (alignDown a w).toNat (valueToBytes w v)
    exact ⟨hmem, by simp [effect], by simp [effect], by simp [effect]⟩
  | setreg | setspec => simp only [effect]; split <;> exact ⟨rfl, rfl, rfl, rfl⟩
  | _ => exact ⟨rfl, rfl, rfl, rfl⟩

end

/-- Settles O53: neither the answer of a command other than USED nor its effect on the rest of the state reads `USED`. -/
theorem usedSetInfluencesOnlyUsed : Obligations.UsedSetInfluencesOnlyUsed := fun i s l h =>
  ⟨_, _, exec_eq .., exec_eq .., congrArg some (answer_setUsed i s l h), effect_setUsed i s l⟩

/-! ### The full reset (R77, R152) -/

theorem sameArch_reset_zeroRegisters_clearStore (s : State) (r : Option Response) :
    State.reset.sameArch { s.zeroRegisters.clearStore with rsp := r } := ⟨rfl, rfl, rfl, rfl, rfl⟩

/-- Settles O54: clearing the store and zeroing the registers touch different components, which together are all five. -/
theorem fullResetGivesPowerOn : Obligations.FullResetGivesPowerOn := fun s =>
  ⟨_, _, _, _, exec_eq .., exec_eq .., sameArch_reset_zeroRegisters_clearStore s _, exec_eq .., exec_eq ..,
    sameArch_reset_zeroRegisters_clearStore s _, rfl⟩

/-! ### The functional form (R66, R73, R130) -/

/-- A call whose index is in no range `[0, n)` ends in the out-of-range error, if its command does so for every index from `n` on. -/
theorem perform_withIndex_out_of_range {c : Call} {d : NumberArg} {f : Nat → Instr} {n : Nat} {s : State}
    (hc : c.denotes = withIndex d f) (hd : ∀ k : Fin n, d ≠ .integer k.val)
    (hf : ∀ idx, n ≤ idx → answer (f idx) s = .err .outOfRangeIndex) :
    c.perform s = .next { s with rsp := some (.err .outOfRangeIndex) } := by
  rcases withIndex_cases d f with ⟨idx, rfl, hcommand⟩ | ⟨-, herror⟩
  · have hidx : n ≤ idx := Nat.le_of_not_lt fun hlt => hd ⟨idx, hlt⟩ rfl
    rw [Call.perform, hc, hcommand]
    exact exec_of_answer_err (hf idx hidx)
  · rw [Call.perform, hc, herror]
    exact raise_eq ..

/-- Settles O57: the four calls take their index through `withIndex`. -/
theorem functionalIndexOutOfRange : Obligations.FunctionalIndexOutOfRange := by
  refine fun i v s => ⟨fun hi => ⟨?_, ?_⟩, fun hi => ⟨?_, ?_⟩⟩
  · exact perform_withIndex_out_of_range rfl hi fun _ h => answer_getreg_of_ge h s
  · exact perform_withIndex_out_of_range rfl hi fun _ h => answer_setreg_of_ge h _ s
  · exact perform_withIndex_out_of_range rfl hi fun _ h => answer_getspec_of_ge h s
  · exact perform_withIndex_out_of_range rfl hi fun _ h => answer_setspec_of_ge h _ s

/-- A presented integer, as an integer again (R73). -/
theorem presented_cast (v : Int) (vw : Nat) : (presented v vw : Int) = v % 2 ^ vw :=
  Int.toNat_of_nonneg (Int.emod_nonneg v (by positivity))

theorem presented_lt (v : Int) (vw : Nat) : presented v vw < 2 ^ vw := by
  zify
  rw [presented_cast]
  exact Int.emod_lt_of_pos v (by positivity)

/-- On a value input of at least 64 bits the reduction of the input does not show in the low 64 bits. -/
theorem presented_mod {vw : Nat} (h : 64 ≤ vw) (v : Int) : ((presented v vw % 2 ^ 64 : Nat) : Int) = v % 2 ^ 64 := by
  rw [Int.natCast_mod, presented_cast]
  exact Int.emod_emod_of_dvd v (pow_dvd_pow 2 h)

/-- Settles O58: 2^64 divides 2^VW. -/
theorem presentedIntegerReducesMod64 : Obligations.PresentedIntegerReducesMod64 := by
  refine fun v vw h => ⟨presented_lt v vw, ?_, fun i s => ⟨_, exec_setreg (presented v vw) s i, ?_⟩⟩
  · rw [low64_toNat, presented_mod h]
  · exact (congrArg _ (readReg_writeReg_low64_toNat (presented v vw) s i)).trans (presented_mod h v)

/-! ### The response lines without a payload -/

/-- Settles O60: the lines are the definition's. -/
theorem linesWithoutPayload : Obligations.LinesWithoutPayload := ⟨fun _ => rfl, fun _ => rfl, rfl, fun _ => rfl, fun _ => rfl⟩

end Sys2Proof.Machine
end
